-- ==== Sys2Proof/Word.lean ====
section
/-! DEFINITION. The widths of the machine's values: 8-bit bytes, 16-bit addresses and the 16-bit instruction word.
All values are unsigned (spec/00_scope.md, section 4). -/

namespace Sys2Proof

/-- An 8-bit value: a general register, `T`, a byte of memory, the immediate `bb` (R6, R20, R28). -/
abbrev Byte := BitVec 8

/-- A 16-bit bus address; also the width of `P` and `A` (R6, R23, R27, R50). -/
abbrev Addr := BitVec 16

/-- The 16-bit instruction word, `byte1 * 256 + byte2` (R90). -/
abbrev Word := BitVec 16

end Sys2Proof
end

