-- ==== Sys2Proof/Config.lean ====
section
/-! DEFINITION. What is fixed before reset: the device base addresses (spec/00_scope.md R6, spec/20_memory.md R68), and the
texts the spec leaves open. -/

namespace Sys2Proof

/-- The configuration: the three base addresses that the spec makes inputs of the model (R6, D10). `RAM_BASE` is no
field: it is `ROM_BASE + 4096` (R68). -/
structure Config where
  /-- `ROM_BASE`, default 0x0000. -/
  romBase : Addr
  /-- `KEYBOARD_BASE`, no canonical value. -/
  keyboardBase : Addr
  /-- `DISPLAY_BASE`, no canonical value. -/
  displayBase : Addr
deriving DecidableEq, Repr

/-- Variant F of R68 ("fixed bases") with the default `ROM_BASE`: the configuration `State.reset` is built with.
DESIGN CHOICE, log 2: the spec gives no canonical `KEYBOARD_BASE` and `DISPLAY_BASE`. -/
def Config.variantF : Config :=
  { romBase := 0x0000, keyboardBase := 0xFE00, displayBase := 0xF000 }

/-- The header of the banner around the rendered display: its text is not given (R67, N16). A free value, log 10. -/
opaque Config.displayHeader : List Char

/-- The footer of the banner around the rendered display: its text is not given (R67, N16). A free value, log 10. -/
opaque Config.displayFooter : List Char

end Sys2Proof
end

