-- ==== Sys2Proof/Syntax.lean ====
section
/-! DEFINITION. The instruction set as syntax: one constructor per row of spec/opcode_table.json, each with the fields its
format names (spec/30_encoding.md R92, R93, R95). The 4-bit register fields keep all sixteen values: what 8..15 does is
the machine's to say (R98). -/

namespace Sys2Proof

/-- The sixteen instructions (R95). `fX` and `fZ` are 4-bit fields, `fY` is a 3-bit field, `bb` an 8-bit and `aaa` a
12-bit immediate (R92). -/
inductive Instr where
  /-- STORE rX, bb (0x0, format RI). -/
  | store (fX : BitVec 4) (bb : BitVec 8)
  /-- ADD rX, rY, rZ (0x1, format RRR). -/
  | add (fX : BitVec 4) (fY : BitVec 3) (fZ : BitVec 4)
  /-- SUB rX, rY, rZ (0x2, format RRR). -/
  | sub (fX : BitVec 4) (fY : BitVec 3) (fZ : BitVec 4)
  /-- READ rX (0x3, format R). -/
  | read (fX : BitVec 4)
  /-- WRITE rX (0x4, format R). -/
  | write (fX : BitVec 4)
  /-- JUMP aaa (0x5, format A). -/
  | jump (aaa : BitVec 12)
  /-- READ_KEYBOARD rX (0x6, format R). -/
  | readKeyboard (fX : BitVec 4)
  /-- SWITCH_MEMORY (0x7, format N). -/
  | switchMemory
  /-- SKIP_EQUAL rX, rY (0x8, format RR). -/
  | skipEqual (fX : BitVec 4) (fY : BitVec 3)
  /-- SKIP_NOT_EQUAL rX, rY (0x9, format RR). -/
  | skipNotEqual (fX : BitVec 4) (fY : BitVec 3)
  /-- SET_A aaa (0xA, format A). -/
  | setA (aaa : BitVec 12)
  /-- SET_T bb (0xB, format I). -/
  | setT (bb : BitVec 8)
  /-- READ_T rX (0xC, format R). -/
  | readT (fX : BitVec 4)
  /-- CONVERT_TO_BASE_10 rX (0xD, format R). -/
  | convertToBase10 (fX : BitVec 4)
  /-- CONVERT_BYTE_TO_ASCII rX, rY (0xE, format RR). -/
  | convertByteToAscii (fX : BitVec 4) (fY : BitVec 3)
  /-- DRAW rX, rY, rZ (0xF, format RRR). -/
  | draw (fX : BitVec 4) (fY : BitVec 3) (fZ : BitVec 4)
deriving DecidableEq, Repr

/-- The two 4-bit register fields, the ones that can name no register (R22). -/
inductive RegField where
  | fX
  | fZ
deriving DecidableEq, Repr

end Sys2Proof
end

