-- ==== Sys2Proof/Machine/State.lean ====
section
/-! DEFINITION. The state of the machine (spec/10_state.md), the diagnostics it emits (spec/60_exceptions.md R207, R208),
the reasons a step can stop, and the state after reset (R38). All of it is plain data. -/

namespace Sys2Proof.Machine

/-- The lifecycle state (R31). -/
inductive Lifecycle where
  | stopped
  | running
  | paused
  /-- Terminal (R213). -/
  | shutDown
deriving DecidableEq, Repr

/-- The host's lifecycle calls after `initialize()` (R223 to R226). -/
inductive LifecycleCall where
  | start
  | pause
  | resume
  | shutdown
deriving DecidableEq, Repr

/-- `CycleInProgress` (R34): a cycle is in progress between steps only while it is blocked in a keyboard read, and then
the state holds which read it waits in and what it has fetched (R127). -/
inductive Cycle where
  /-- No cycle is in progress. -/
  | idle
  /-- Blocked in the fetch of `byte1`. -/
  | fetchByte1
  /-- Blocked in the fetch of `byte2`, with `byte1` fetched. -/
  | fetchByte2 (byte1 : Byte)
  /-- Blocked in the keyboard read of the handler of `i` (READ or READ_KEYBOARD): both bytes are fetched and decoded. -/
  | handlerRead (i : Instr)
deriving DecidableEq, Repr

/-- One keyboard token (R63, R64). `text` is what the host supplied. `unstated` is the environment's choice of the byte
for a text whose byte R64 does not state: a free value, held in the state (D17, log 5). -/
structure Token where
  text : List Char
  unstated : Byte
deriving DecidableEq, Repr

/-- Which operand of DRAW is out of range (R204). -/
inductive DrawOperand where
  | character
  | row
  | column
deriving DecidableEq, Repr

/-- The fatal conditions with the information each carries (spec/60_exceptions.md, section 2). None of them is a stop of
the model: `raise` takes each of them, as R212 describes. -/
inductive FatalCondition where
  /-- R201: unreachable. -/
  | unknownOpcode (opcode : BitVec 4)
  /-- R202. -/
  | oddJumpTarget (aaa : BitVec 12)
  /-- R203. -/
  | asciiOperandOutOfRange (value : Byte)
  /-- R204. -/
  | drawOperandOutOfRange (operand : DrawOperand) (value : Byte)
  /-- R205. -/
  | readOnlyDeviceViolation (address : Addr)
  /-- R206. -/
  | invalidRegisterIndex (field : RegField) (value : BitVec 4)
deriving DecidableEq, Repr

/-- The two directions of a bus access, as a diagnostic reports them (R208). -/
inductive AccessKind where
  | read
  | write
deriving DecidableEq, Repr

/-- A message to the outside (R209): the recoverable conditions of R208, a lifecycle call in the wrong state (R227), and
the termination signal of a fatal condition with the address of the instruction that raised it (R207). -/
inductive Diagnostic where
  | unmappedAccess (kind : AccessKind) (address : Addr)
  | romImagePadded
  | romImageTruncated
  | callIgnored (call : LifecycleCall) (state : Lifecycle)
  | fatal (condition : FatalCondition) (instructionAddress : Addr)
deriving DecidableEq, Repr

/-- A step of the timer agent or of the host (R230). -/
inductive Event where
  /-- The timer agent: one tick (R216). -/
  | tick
  /-- The host calls a lifecycle operation (R223 to R226). -/
  | call (c : LifecycleCall)
  /-- The host supplies one keyboard token (R63). -/
  | token (t : Token)
  /-- The host requests the rendered display (R67). -/
  | render
  /-- The host calls `initialize()` again, which the spec's model refuses (R222). -/
  | initialise (config : Config) (image : List Byte)
deriving DecidableEq, Repr

/-- Which agent moves next (R230). The model's own data (log 7). -/
inductive Turn where
  /-- The CPU agent: begin a cycle, or go on with the blocked one. -/
  | cpu
  /-- The timer agent or the host. -/
  | event (e : Event)
deriving DecidableEq, Repr

/-- The devices that hold bytes (R32). -/
inductive Store where
  | rom
  | ram
  | display
deriving DecidableEq, Repr

/-- The bytes of the three storing devices (R32): for each device a list of (device offset, byte) in one canonical form,
`Memory.wf`. An offset that is not listed reads as `Store.unlisted`. -/
structure Memory where
  rom : List Host.Cell := []
  ram : List Host.Cell := []
  display : List Host.Cell := []
deriving DecidableEq, Repr

/-- The machine's state: RegisterFile (R20 to R29), lifecycle (R31), device storage (R32), hidden state (R33, R34), and
the environment's two sequences (R35). `config` is fixed for the run (R37); `schedule` is the model's own: the turns the
agents take next, the CPU alone when it is empty (log 7). -/
structure State where
  /-- `r0` to `r7` (R20). -/
  regs : Vector Byte 8
  /-- The program counter `P` (R23). -/
  pc : Addr
  /-- The address register `A` (R27). -/
  regA : Addr
  /-- The timer register `T` (R28). -/
  regT : Byte
  /-- The memory-bank flag `M` (R29). -/
  flagM : Bool
  /-- `TimerActive` (R33). -/
  timerActive : Bool
  /-- The lifecycle state (R31). -/
  lifecycle : Lifecycle
  /-- `CycleInProgress` and what a blocked cycle holds (R34). -/
  cycle : Cycle
  /-- ROM, RAM and DISPLAY (R32). -/
  mem : Memory
  /-- The keyboard tokens supplied and not yet consumed, oldest first (R35). -/
  keyboard : List Token
  /-- The diagnostic output, oldest first (R35, R209). -/
  diagnostics : List Diagnostic
  /-- The configuration (R6, R37). -/
  config : Config
  /-- The turns the agents take next (log 7). -/
  schedule : List Turn
deriving DecidableEq, Repr

/-- Why a step would stop with a fault. No fatal condition of the spec is here: each is taken (R212). -/
inductive Fault where
  /-- Raised by `step` if the fetch handed the decoder fewer than two bytes, which it never does: the arm is there
  because `decode` is total on lists of bytes. Safe. -/
  | truncatedFetch
deriving DecidableEq, Repr

/-- Why the model gives no meaning. -/
inductive Refusal where
  /-- An instruction with no meaning yet, by its mnemonic: no arm of `exec` answers it. Safe. -/
  | notModelled (mnemonic : String)
  /-- Raised by `step` when the host calls `initialize()` on a machine that is initialised: host behaviour that "the model
  refuses" (R222, D6). Safe. -/
  | initialiseOutOfOrder
  /-- Raised by `initialiseMachine` for a configuration that is not well-formed: "an ill-formed one is refused" (R69, D11).
  Safe. -/
  | illFormedConfiguration
deriving DecidableEq, Repr

/-- The state when `initialize()` has finished and before `start()` (R38, R250, R251), for variant F (log 2) and the empty
ROM image (log 3), whose padding R60 reports. The values of the registers are R38's (log 1). -/
def State.reset : State :=
  { regs := Vector.replicate 8 0
    pc := 0x0000
    regA := 0x0000
    regT := 0x00
    flagM := false
    timerActive := false
    lifecycle := .stopped
    cycle := .idle
    mem := { rom := [], ram := [], display := [] }
    keyboard := []
    diagnostics := [.romImagePadded]
    config := Config.variantF
    schedule := [] }

end Sys2Proof.Machine
end

