-- ==== Sys2Proof/Machine/Keyboard.lean ====
section
/-! DEFINITION. The byte a keyboard token parses to (spec/20_memory.md R64). -/

namespace Sys2Proof.Machine

/-- The value of a hexadecimal digit. The capital letters are digits: `0x1F` gives 0x1F (R170, *Example*). DEDUCED, log 5. -/
def hexDigit (c : Char) : Option Nat :=
  if 48 ≤ c.toNat ∧ c.toNat ≤ 57 then some (c.toNat - 48)
  else if 65 ≤ c.toNat ∧ c.toNat ≤ 70 then some (c.toNat - 55)
  else none

/-- `a` to `f`: "DOC00 does not say whether letters are accepted in both cases" (R64). -/
def isLowerHex (c : Char) : Bool := decide (97 ≤ c.toNat ∧ c.toNat ≤ 102)

/-- A hexadecimal digit under some reading of the letter case. -/
def isHexChar (c : Char) : Bool := (hexDigit c).isSome || isLowerHex c

/-- White space: whether it is removed around a token is not said, nor which characters it is (R64, N14, U11). DESIGN
CHOICE, log 5: the controls 0x00 to 0x1F, the space, and the space and separator characters of Unicode. It decides only
which texts have a free byte. -/
def isBlank (c : Char) : Bool :=
  decide (c.toNat ≤ 0x20 ∨ (0x2000 ≤ c.toNat ∧ c.toNat ≤ 0x200B))
    || [0x85, 0xA0, 0x1680, 0x180E, 0x2028, 0x2029, 0x202F, 0x205F, 0x3000, 0xFEFF].contains c.toNat

/-- Neither a hexadecimal digit nor white space, under any reading: a text that holds such a character (beside the prefix)
is not hexadecimal. -/
def isAlien (c : Char) : Bool := !isHexChar c && !isBlank c

/-- The number a string of digits writes, most significant first. -/
def hexValue : Nat → List Char → Nat
  | acc, [] => acc
  | acc, c :: cs => hexValue (acc * 16 + (hexDigit c).getD 0) cs

/-- The byte of a string of digits of at most `most` digits: 0x00 for a string that is not hexadecimal under any reading;
`none` where the spec states none (a blank, a small letter, no digit, too many digits); else the low byte of its value. -/
def digitsByte (most : Nat) (cs : List Char) : Option Byte :=
  if cs.any isAlien then some 0x00
  else if cs.any isBlank || cs.any isLowerHex then none
  else if cs = [] ∨ most < cs.length then none
  else some (BitVec.ofNat 8 (hexValue 0 cs))

/-- The byte that R64 states for a text whose leading white space is taken off, with `prefixed` the most digits it may have
behind `0x` and `bare` the most it may have without. Behind `0X`, which may or may not be a prefix (N14), no digits have a
stated byte, and what is not hexadecimal is 0x00 either way. -/
def coreByte (prefixed bare : Nat) (core : List Char) : Option Byte :=
  if core = [] then some 0x00
  else if core.take 2 = ['0', 'x'] then digitsByte prefixed (core.drop 2)
  else if core.take 2 = ['0', 'X'] then digitsByte 0 (core.drop 2)
  else digitsByte bare core

/-- The byte that R64 states for a token's text, `none` where it states none (N14, U11): a bare string of one or two
hexadecimal digits, a `0x`-prefixed hexadecimal string (of at most seven digits, log 5), the empty token (white space alone
is empty or not hexadecimal), a token that is not hexadecimal. Digits behind white space have no stated byte. -/
def tokenByte (text : List Char) : Option Byte :=
  if text.dropWhile isBlank = text then coreByte 7 2 text else coreByte 0 0 (text.dropWhile isBlank)

/-- The byte of a token: R64's where it states one, else the environment's (D17). -/
def Token.byte (t : Token) : Byte := (tokenByte t.text).getD t.unstated

end Sys2Proof.Machine
end

