-- ==== Sys2Proof/Machine/Memory.lean ====
section
/-! DEFINITION. The storage of ROM, RAM and the display as canonical lists of cells (spec/10_state.md R32,
spec/20_memory.md R60 to R62, R65). -/

namespace Sys2Proof.Machine

/-- The number of bytes a storing device holds (R6, R32). -/
def Store.size : Store → Nat
  | .rom => 4096
  | .ram => 4096
  | .display => 64

/-- What an offset that no cell lists reads as: 0x00 in ROM (the padding of R60) and in RAM ("zero-initialized at
creation", R62), the ASCII space 0x20 in the display (R65). -/
def Store.unlisted : Store → Byte
  | .rom => 0x00
  | .ram => 0x00
  | .display => 0x20

/-- The byte a list of cells gives an offset, if it lists it. -/
def cellsGet : List Host.Cell → Nat → Option Byte
  | [], _ => none
  | (k, v) :: m, i => if k = i then some v else cellsGet m i

/-- List the byte `v` at offset `i`, keeping the offsets rising. -/
def cellsInsert : List Host.Cell → Nat → Byte → List Host.Cell
  | [], i, v => [(i, v)]
  | (k, w) :: m, i, v =>
      if i < k then (i, v) :: (k, w) :: m
      else if i = k then (i, v) :: m
      else (k, w) :: cellsInsert m i v

/-- Take offset `i` off the list. -/
def cellsErase : List Host.Cell → Nat → List Host.Cell
  | [], _ => []
  | (k, w) :: m, i => if k = i then cellsErase m i else (k, w) :: cellsErase m i

/-- The canonical form of the cells of device `d` from offset `lo` on: offsets strictly rising and inside the device, no
byte listed that an unlisted offset reads as. -/
def cellsWf (d : Store) : Nat → List Host.Cell → Bool
  | _, [] => true
  | lo, (k, v) :: m => decide (lo ≤ k) && decide (k < d.size) && decide (v ≠ d.unlisted) && cellsWf d (k + 1) m

/-- The cells of one device. -/
def Memory.cells (m : Memory) : Store → List Host.Cell
  | .rom => m.rom
  | .ram => m.ram
  | .display => m.display

/-- Replace the cells of one device. -/
def Memory.setCells (m : Memory) (d : Store) (l : List Host.Cell) : Memory :=
  match d with
  | .rom => { m with rom := l }
  | .ram => { m with ram := l }
  | .display => { m with display := l }

/-- The byte at offset `i` of device `d`: `ROM[i]`, `RAM[i]` or `DISPLAY[i]` (R32). -/
def Memory.read (m : Memory) (d : Store) (i : Nat) : Byte :=
  (cellsGet (m.cells d) i).getD d.unlisted

/-- `ROM[i] <- v`, `RAM[i] <- v` or `DISPLAY[i] <- v` (R32), in canonical form. -/
def Memory.write (m : Memory) (d : Store) (i : Nat) (v : Byte) : Memory :=
  m.setCells d (if v = d.unlisted then cellsErase (m.cells d) i else cellsInsert (m.cells d) i v)

/-- The canonical form of the whole storage: equal memories are equal data. -/
def Memory.wf (m : Memory) : Bool :=
  cellsWf .rom 0 m.rom && cellsWf .ram 0 m.ram && cellsWf .display 0 m.display

/-- The cells of a ROM image from offset `i` on: bytes at 4096 and above are dropped, zero bytes are not listed (R60). -/
def romCells : Nat → List Byte → List Host.Cell
  | _, [] => []
  | i, b :: bs =>
      if i < Store.size .rom then
        if b = Store.unlisted .rom then romCells (i + 1) bs else (i, b) :: romCells (i + 1) bs
      else []

/-- The diagnostic of loading an image: padded if shorter than the ROM, truncated if longer (R60). -/
def romImageDiagnostics (image : List Byte) : List Diagnostic :=
  if image.length < Store.size .rom then [.romImagePadded]
  else if Store.size .rom < image.length then [.romImageTruncated]
  else []

end Sys2Proof.Machine
end

