-- ==== Sys2Proof/Machine/Ops.lean ====
section
/-! DEFINITION. The named operations: diagnostics, registers, shutdown and taking a fatal condition, the address router
with MemRead and MemWrite, the keyboard read, the display cell, the timer clock and the advance of `P`
(spec/20_memory.md, spec/40_execution_cycle.md, spec/60_exceptions.md). There is no return from a fatal condition
(R213), so no operation returns from one. -/

namespace Sys2Proof.Machine

/-- Emit a diagnostic: it is appended to the output and changes no other state (R209). -/
def State.emit (d : Diagnostic) (s : State) : State := { s with diagnostics := s.diagnostics ++ [d] }

/-- `x[n]`, read (R20). -/
def State.reg (s : State) (n : Fin 8) : Byte := s.regs[n.val]

/-- `x[n] <- v` (R20): no register is hardwired. -/
def State.setReg (n : Fin 8) (v : Byte) (s : State) : State := { s with regs := s.regs.set n.val v }

/-- `pc <- pc +16 delta` (R25, R124): modulo 65536 (R76, D9). -/
def State.advance (delta : Addr) (s : State) : State := { s with pc := s.pc + delta }

/-- A cycle blocks: it waits in the read that `c` names, and nothing else changes (R127). -/
def State.blockIn (c : Cycle) (s : State) : State := { s with cycle := c }

/-! ### Shutdown and fatal conditions -/

/-- `shutdown()` (R226): no further cycle begins, the timer clock stops, `T` and everything else stay. -/
def State.shutdown (s : State) : State := { s with timerActive := false, lifecycle := .shutDown }

/-- Take a fatal condition (R125, R207, R212): the diagnostic, with the address of the instruction, and the shutdown, in
one step. `P` is not advanced and nothing is rolled back (D12). -/
def raise (c : FatalCondition) (s : State) : State := (s.emit (.fatal c s.pc)).shutdown

/-! ### The address router -/

/-- The four devices (R52). -/
inductive Device where
  | rom
  | ram
  | keyboard
  | display
deriving DecidableEq, Repr

/-- The order in which initialisation appends the devices (R53). -/
def deviceOrder : List Device := [.rom, .ram, .keyboard, .display]

/-- The first address of a device (R68): RAM follows ROM immediately. -/
def deviceBase (c : Config) : Device → Nat
  | .rom => c.romBase.toNat
  | .ram => c.romBase.toNat + 4096
  | .keyboard => c.keyboardBase.toNat
  | .display => c.displayBase.toNat

/-- The size of a device in bytes (R6). -/
def deviceSize : Device → Nat
  | .rom => 4096
  | .ram => 4096
  | .keyboard => 1
  | .display => 64

/-- `base <= address < base + size` (R52). -/
def deviceOwns (c : Config) (a : Addr) (d : Device) : Bool :=
  decide (deviceBase c d ≤ a.toNat) && decide (a.toNat < deviceBase c d + deviceSize d)

/-- The first registered device whose range contains the address (R54). -/
def deviceAt (c : Config) (a : Addr) : Option Device := deviceOrder.find? (deviceOwns c a)

/-- What an address leads to. -/
inductive Target where
  /-- Offset `offset` of a storing device. -/
  | cell (d : Store) (offset : Nat)
  | keyboard
  /-- No device owns the address (R56, R57). -/
  | unmapped
deriving DecidableEq, Repr

/-- The router's dispatch with the translation to a device offset, `address - base` (R52, R54). -/
def route (c : Config) (a : Addr) : Target :=
  match deviceAt c a with
  | some .rom => .cell .rom (a.toNat - deviceBase c .rom)
  | some .ram => .cell .ram (a.toNat - deviceBase c .ram)
  | some .keyboard => .keyboard
  | some .display => .cell .display (a.toNat - deviceBase c .display)
  | none => .unmapped

/-- Two devices have no address in common. -/
def disjointRanges (c : Config) (d e : Device) : Bool :=
  decide (deviceBase c d + deviceSize d ≤ deviceBase c e) || decide (deviceBase c e + deviceSize e ≤ deviceBase c d)

/-- A well-formed configuration (R69): every range inside the address space, the ranges pairwise disjoint. -/
def configWf (c : Config) : Bool :=
  deviceOrder.all (fun d => decide (deviceBase c d + deviceSize d ≤ 65536))
    && disjointRanges c .rom .ram && disjointRanges c .rom .keyboard && disjointRanges c .rom .display
    && disjointRanges c .ram .keyboard && disjointRanges c .ram .display && disjointRanges c .keyboard .display

/-- The byte that the machine stores at a bus address: none at the keyboard and at unmapped addresses, which hold no byte
(R32). It reads without the side effects of a bus access, for claims. -/
def byteAt (s : State) (a : Addr) : Option Byte :=
  match route s.config a with
  | .cell d i => some (s.mem.read d i)
  | .keyboard => none
  | .unmapped => none

/-- `KeyboardRead()` (R63): the oldest token is consumed and gives its byte; `none` while there is no token, and then the
read blocks. -/
def keyboardRead (s : State) : Option (Byte × State) :=
  match s.keyboard with
  | [] => none
  | t :: ts => some (t.byte, { s with keyboard := ts })

/-- `MemRead(a, 1)` (R58): `none` when the read blocks. It is never fatal. -/
def busRead (a : Addr) (s : State) : Option (Byte × State) :=
  match route s.config a with
  | .cell d i => some (s.mem.read d i, s)
  | .keyboard => keyboardRead s
  | .unmapped => some (0xFF, s.emit (.unmappedAccess .read a))

/-- `MemWrite(a, 1, v)` (R59): the state after, or the fatal condition that the write raises. -/
def busWrite (a : Addr) (v : Byte) (s : State) : Except FatalCondition State :=
  match route s.config a with
  | .cell .rom _ => .error (.readOnlyDeviceViolation a)
  | .keyboard => .error (.readOnlyDeviceViolation a)
  | .cell .ram i => .ok { s with mem := s.mem.write .ram i v }
  | .cell .display i => .ok { s with mem := s.mem.write .display i v }
  | .unmapped => .ok (s.emit (.unmappedAccess .write a))

/-- The writes of an instruction, each routed on its own in the order given, and then the advance of `P`. A refused write
ends the instruction with its fatal condition: the writes before it stay, the writes after it are not attempted, `P` is
not advanced (R73, R125, R180, D13). -/
def writeThenAdvance : List (Addr × Byte) → State → Host.Outcome State Fault Refusal
  | [], s => .next (s.advance 2)
  | (a, v) :: ws, s =>
      match busWrite a v s with
      | .ok s' => writeThenAdvance ws s'
      | .error c => .next (raise c s)

/-- `DISPLAY[i] <- v`, the display addressed directly (R51, R173, D19). -/
def drawCell (i : Nat) (v : Byte) (s : State) : State := { s with mem := s.mem.write .display i v }

/-! ### The timer clock -/

/-- `set_timer_value(bb)` (R215). After a shutdown the activity is not started: no tick falls after it (R217, R218); the
spec leaves that case open (U9), DESIGN CHOICE, log 6. -/
def setTimerValue (bb : Byte) (s : State) : State :=
  { s with regT := bb, timerActive := decide (0 < bb.toNat) && decide (s.lifecycle ≠ .shutDown) }

/-- One tick (R216): possible only while `TimerActive` is set, otherwise nothing changes. -/
def tick (s : State) : State :=
  if s.timerActive then
    { s with
      regT := if 0 < s.regT.toNat then s.regT - 1 else s.regT
      timerActive := decide (1 < s.regT.toNat) }
  else s

end Sys2Proof.Machine
end

