-- ==== Sys2Proof/Machine/Operands.lean ====
section
/-! DEFINITION. The operand forms (spec/30_encoding.md R92, R94, R98) and the arithmetic on operands
(spec/41_load_arith.md R143, spec/45_convert.md R180, R182). -/

namespace Sys2Proof.Machine

/-- The register a 4-bit field names: none for 8..15 (R22). -/
def regOfField (f : BitVec 4) : Option (Fin 8) := if h : f.toNat < 8 then some ⟨f.toNat, h⟩ else none

/-- The register the 3-bit field `fY` names: always one (R22). -/
def regOfY (f : BitVec 3) : Fin 8 := ⟨f.toNat, f.isLt⟩

/-- The register-number check of one field (R98): the handler `k` runs on the register the field names, and a field that
names none raises `InvalidRegisterIndex` before the handler does anything. -/
def withReg (field : RegField) (f : BitVec 4) (s : State) (k : Fin 8 → Host.Outcome State Fault Refusal) :
    Host.Outcome State Fault Refusal :=
  match regOfField f with
  | some n => k n
  | none => .next (raise (.invalidRegisterIndex field f) s)

/-- `zext_16(aaa)` (R94). -/
def zextAddress (aaa : BitVec 12) : Addr := aaa.setWidth 16

/-- `(x + y) mod 256` (R141, R143). -/
def addMod256 (x y : Byte) : Byte := x + y

/-- `(x - y) mod 256` (R142, R143). -/
def subMod256 (x y : Byte) : Byte := x - y

/-- The hundreds digit, `v div 100` (R180). -/
def hundredsDigit (v : Byte) : Byte := BitVec.ofNat 8 (v.toNat / 100)

/-- The tens digit, `(v div 10) mod 10` (R180). -/
def tensDigit (v : Byte) : Byte := BitVec.ofNat 8 (v.toNat / 10 % 10)

/-- The ones digit, `v mod 10` (R180). -/
def onesDigit (v : Byte) : Byte := BitVec.ofNat 8 (v.toNat % 10)

/-- `ascii_digit(n)` (R182): `'0' + n` up to 9, `'A' + (n - 10)` from 10 to 15. That `'0'` is 0x30 is the spec's G1. -/
def asciiDigit (n : Byte) : Byte := if n.toNat < 10 then 0x30 + n else 0x41 + (n - 10)

/-- The display offset of a row and a column, `row * 8 + col` (R66). -/
def cellOffset (row col : Byte) : Nat := row.toNat * 8 + col.toNat

end Sys2Proof.Machine
end

