-- ==== Sys2Proof/Machine/Flags.lean ====
section
/-! DEFINITION. The machine has no status flags and no condition codes (spec/10_state.md R30). What stands in their place are
the two direct comparisons of the skip pair, and the one flag in name only, `M`, which nothing tests (R29). -/

namespace Sys2Proof.Machine

/-- The condition of SKIP_EQUAL: equality of the two 8-bit values (R161). -/
def condEqual (x y : Byte) : Bool := decide (x = y)

/-- The condition of SKIP_NOT_EQUAL (R162). -/
def condNotEqual (x y : Byte) : Bool := !decide (x = y)

/-- The PC delta of a skip: 4 when its condition holds, else 2 (R25). -/
def skipDelta (condition : Bool) : Addr := if condition then 4 else 2

/-- `M <- not M` (R153). -/
def State.toggleM (s : State) : State := { s with flagM := !s.flagM }

end Sys2Proof.Machine
end

