-- ==== Sys2Proof/Machine/Control.lean ====
section
/-! DEFINITION. JUMP, SKIP_EQUAL, SKIP_NOT_EQUAL (spec/43_control.md). -/

namespace Sys2Proof.Machine

/-- JUMP aaa (R160): fatal for an odd target, with `P` unchanged; else `pc <- zext_16(aaa)` and nothing is added. -/
def execJump (aaa : BitVec 12) (s : State) : Host.Outcome State Fault Refusal :=
  if aaa.getLsbD 0 then .next (raise (.oddJumpTarget aaa) s) else .next { s with pc := zextAddress aaa }

/-- SKIP_EQUAL rX, rY (R161). -/
def execSkipEqual (fX : BitVec 4) (fY : BitVec 3) (s : State) : Host.Outcome State Fault Refusal :=
  withReg .fX fX s fun x => .next (s.advance (skipDelta (condEqual (s.reg x) (s.reg (regOfY fY)))))

/-- SKIP_NOT_EQUAL rX, rY (R162). -/
def execSkipNotEqual (fX : BitVec 4) (fY : BitVec 3) (s : State) : Host.Outcome State Fault Refusal :=
  withReg .fX fX s fun x => .next (s.advance (skipDelta (condNotEqual (s.reg x) (s.reg (regOfY fY)))))

end Sys2Proof.Machine
end

