-- ==== Sys2Proof/Machine/Convert.lean ====
section
/-! DEFINITION. CONVERT_TO_BASE_10, CONVERT_BYTE_TO_ASCII (spec/45_convert.md). -/

namespace Sys2Proof.Machine

/-- The three writes of CONVERT_TO_BASE_10, in the order they are issued: hundreds at `A`, tens at `A +16 1`, ones at
`A +16 2` (R180, D13). -/
def digitWrites (a : Addr) (v : Byte) : List (Addr × Byte) :=
  [(a, hundredsDigit v), (a + 1, tensDigit v), (a + 2, onesDigit v)]

/-- CONVERT_TO_BASE_10 rX (R180). -/
def execConvertToBase10 (fX : BitVec 4) (s : State) : Host.Outcome State Fault Refusal :=
  withReg .fX fX s fun x => writeThenAdvance (digitWrites s.regA (s.reg x)) s

/-- CONVERT_BYTE_TO_ASCII rX, rY (R181): fatal above 0x0F, else `x[fY] <- ascii_digit(x[fX])`. -/
def execConvertByteToAscii (fX : BitVec 4) (fY : BitVec 3) (s : State) : Host.Outcome State Fault Refusal :=
  withReg .fX fX s fun x =>
    if 0x0F < (s.reg x).toNat then .next (raise (.asciiOperandOutOfRange (s.reg x)) s)
    else .next ((s.setReg (regOfY fY) (asciiDigit (s.reg x))).advance 2)

end Sys2Proof.Machine
end

