-- ==== Sys2Proof/Machine/IoTimer.lean ====
section
/-! DEFINITION. READ_KEYBOARD, SET_T, READ_T, DRAW (spec/44_io_timer.md). -/

namespace Sys2Proof.Machine

/-- READ_KEYBOARD rX (R170): `x[fX] <- KeyboardRead()`, the device addressed directly (D19); blocks while there is no
token. -/
def execReadKeyboard (fX : BitVec 4) (s : State) : Host.Outcome State Fault Refusal :=
  withReg .fX fX s fun x =>
    match keyboardRead s with
    | none => .next (s.blockIn (.handlerRead (.readKeyboard fX)))
    | some (v, s') => .next ((s'.setReg x v).advance 2)

/-- SET_T bb (R171): `set_timer_value(bb)`. -/
def execSetT (bb : Byte) (s : State) : Host.Outcome State Fault Refusal :=
  .next ((setTimerValue bb s).advance 2)

/-- READ_T rX (R172): `x[fX] <- T`. -/
def execReadT (fX : BitVec 4) (s : State) : Host.Outcome State Fault Refusal :=
  withReg .fX fX s fun x => .next ((s.setReg x s.regT).advance 2)

/-- DRAW rX, rY, rZ (R173): the character, the row and the column are register contents (C2), checked in that order
(D20) before the write of the one cell. -/
def execDraw (fX : BitVec 4) (fY : BitVec 3) (fZ : BitVec 4) (s : State) : Host.Outcome State Fault Refusal :=
  withReg .fX fX s fun x => withReg .fZ fZ s fun z =>
    if 0x7F < (s.reg x).toNat then .next (raise (.drawOperandOutOfRange .character (s.reg x)) s)
    else if 8 ≤ (s.reg (regOfY fY)).toNat then .next (raise (.drawOperandOutOfRange .row (s.reg (regOfY fY))) s)
    else if 8 ≤ (s.reg z).toNat then .next (raise (.drawOperandOutOfRange .column (s.reg z)) s)
    else .next ((drawCell (cellOffset (s.reg (regOfY fY)) (s.reg z)) (s.reg x) s).advance 2)

end Sys2Proof.Machine
end

