-- ==== Sys2Proof/Machine/LoadArith.lean ====
section
/-! DEFINITION. STORE, ADD, SUB (spec/41_load_arith.md). -/

namespace Sys2Proof.Machine

/-- STORE rX, bb (R140): `x[fX] <- bb`. -/
def execStore (fX : BitVec 4) (bb : Byte) (s : State) : Host.Outcome State Fault Refusal :=
  withReg .fX fX s fun x => .next ((s.setReg x bb).advance 2)

/-- ADD rX, rY, rZ (R141): `x[fZ] <- (x[fX] + x[fY]) mod 256`. -/
def execAdd (fX : BitVec 4) (fY : BitVec 3) (fZ : BitVec 4) (s : State) : Host.Outcome State Fault Refusal :=
  withReg .fX fX s fun x => withReg .fZ fZ s fun z =>
    .next ((s.setReg z (addMod256 (s.reg x) (s.reg (regOfY fY)))).advance 2)

/-- SUB rX, rY, rZ (R142): `x[fZ] <- (x[fX] - x[fY]) mod 256`. -/
def execSub (fX : BitVec 4) (fY : BitVec 3) (fZ : BitVec 4) (s : State) : Host.Outcome State Fault Refusal :=
  withReg .fX fX s fun x => withReg .fZ fZ s fun z =>
    .next ((s.setReg z (subMod256 (s.reg x) (s.reg (regOfY fY)))).advance 2)

end Sys2Proof.Machine
end

