-- ==== Sys2Proof/Machine/MemoryAccess.lean ====
section
/-! DEFINITION. SET_A, READ, WRITE, SWITCH_MEMORY (spec/42_memory_access.md): the one addressing mode is indirect through
`A`, which no access changes (R154). -/

namespace Sys2Proof.Machine

/-- SET_A aaa (R150): `A <- zext_16(aaa)`; odd values are accepted. -/
def execSetA (aaa : BitVec 12) (s : State) : Host.Outcome State Fault Refusal :=
  .next ({ s with regA := zextAddress aaa }.advance 2)

/-- READ rX (R151): `x[fX] <- MemRead(A, 1)`; at the keyboard address the cycle may block. -/
def execRead (fX : BitVec 4) (s : State) : Host.Outcome State Fault Refusal :=
  withReg .fX fX s fun x =>
    match busRead s.regA s with
    | none => .next (s.blockIn (.handlerRead (.read fX)))
    | some (v, s') => .next ((s'.setReg x v).advance 2)

/-- WRITE rX (R152): `MemWrite(A, 1, x[fX])`. -/
def execWrite (fX : BitVec 4) (s : State) : Host.Outcome State Fault Refusal :=
  withReg .fX fX s fun x => writeThenAdvance [(s.regA, s.reg x)] s

/-- SWITCH_MEMORY (R153): `M <- not M`. -/
def execSwitchMemory (s : State) : Host.Outcome State Fault Refusal :=
  .next (s.toggleM.advance 2)

end Sys2Proof.Machine
end

