-- ==== Sys2Proof/Machine/Dispatch.lean ====
section
/-! DEFINITION. exec: one arm per instruction of the opcode table (spec/30_encoding.md R95), each one direct call of its
meaning. -/

namespace Sys2Proof.Machine

/-- The handler of an instruction with the register-number check before it and the advance of `P` after it (R120). -/
def exec (i : Instr) (s : State) : Host.Outcome State Fault Refusal :=
  match i with
  | .store fX bb => Sys2Proof.Machine.execStore fX bb s
  | .add fX fY fZ => Sys2Proof.Machine.execAdd fX fY fZ s
  | .sub fX fY fZ => Sys2Proof.Machine.execSub fX fY fZ s
  | .read fX => Sys2Proof.Machine.execRead fX s
  | .write fX => Sys2Proof.Machine.execWrite fX s
  | .jump aaa => Sys2Proof.Machine.execJump aaa s
  | .readKeyboard fX => Sys2Proof.Machine.execReadKeyboard fX s
  | .switchMemory => Sys2Proof.Machine.execSwitchMemory s
  | .skipEqual fX fY => Sys2Proof.Machine.execSkipEqual fX fY s
  | .skipNotEqual fX fY => Sys2Proof.Machine.execSkipNotEqual fX fY s
  | .setA aaa => Sys2Proof.Machine.execSetA aaa s
  | .setT bb => Sys2Proof.Machine.execSetT bb s
  | .readT fX => Sys2Proof.Machine.execReadT fX s
  | .convertToBase10 fX => Sys2Proof.Machine.execConvertToBase10 fX s
  | .convertByteToAscii fX fY => Sys2Proof.Machine.execConvertByteToAscii fX fY s
  | .draw fX fY fZ => Sys2Proof.Machine.execDraw fX fY fZ s

end Sys2Proof.Machine
end

