-- ==== Sys2Proof/Machine/Display.lean ====
section
/-! DEFINITION. The rendered view of the display (spec/20_memory.md R66, R67): a pure function of the 64 bytes, no state
(spec/10_state.md R37). -/

namespace Sys2Proof.Machine

/-- How a cell byte renders: as its character in 0x20..0x7E, otherwise as `.` (R67). -/
def renderByte (b : Byte) : Char := if 0x20 ≤ b.toNat ∧ b.toNat ≤ 0x7E then Char.ofNat b.toNat else '.'

/-- The cell at row `r` and column `c` (R66). -/
def displayCell (s : State) (r c : Nat) : Byte := s.mem.read .display (r * 8 + c)

/-- Row `r` of the output: eight characters and a newline (R67). -/
def renderRow (s : State) (r : Nat) : List Char :=
  (List.range 8).map (fun c => renderByte (displayCell s r c)) ++ ['\n']

/-- What a render request gives the host (R67): the eight rows between the banner's header and footer, whose texts are
free values (log 10). -/
def render (s : State) : List Char :=
  Config.displayHeader ++ ((List.range 8).map (renderRow s)).flatten ++ Config.displayFooter

end Sys2Proof.Machine
end

