-- ==== Sys2Proof/Decode.lean ====
section
/-! DEFINITION. The decoder and, after it, the encoder (spec/30_encoding.md R90 to R99). The decoder is total on any
bytes: two bytes always decode (R96); it rejects, by name, fewer than two bytes, and keeps the unreachable arm for an
opcode outside the sixteen (R97, C1). -/

namespace Sys2Proof

/-- Why the decoder answers no instruction. -/
inductive DecodeError where
  /-- Fewer than two bytes were given: every instruction is exactly two bytes (R90). -/
  | truncated
  /-- An opcode outside the sixteen defined values: unreachable, since all sixteen are defined (R97, D26). -/
  | unknownOpcode (opcode : BitVec 4)
deriving DecidableEq, Repr

/-- `word = byte1 * 256 + byte2` (R90). -/
def wordOf (byte1 byte2 : Byte) : Word := byte1 ++ byte2

/-- The opcode, `word[15:12]` (R91). -/
def opcodeOf (w : Word) : BitVec 4 := w.extractLsb' 12 4

/-- The field `fX`, `word[11:8]` (R92). -/
def fieldX (w : Word) : BitVec 4 := w.extractLsb' 8 4

/-- The field `fY`, `word[6:4]` (R92): bit 7 belongs to no register field. -/
def fieldY (w : Word) : BitVec 3 := w.extractLsb' 4 3

/-- The field `fZ`, `word[3:0]` (R92). -/
def fieldZ (w : Word) : BitVec 4 := w.extractLsb' 0 4

/-- The immediate `bb`, `word[7:0]` (R92). -/
def fieldBB (w : Word) : BitVec 8 := w.extractLsb' 0 8

/-- The immediate `aaa`, `word[11:0]` (R92). -/
def fieldAAA (w : Word) : BitVec 12 := w.extractLsb' 0 12

/-- The opcode map of R95: the instruction of an opcode, with the fields of its format (R93) taken from the word. -/
def instrOf (opcode : Nat) (w : Word) : Except DecodeError Instr :=
  match opcode with
  | 0x0 => .ok (.store (fieldX w) (fieldBB w))
  | 0x1 => .ok (.add (fieldX w) (fieldY w) (fieldZ w))
  | 0x2 => .ok (.sub (fieldX w) (fieldY w) (fieldZ w))
  | 0x3 => .ok (.read (fieldX w))
  | 0x4 => .ok (.write (fieldX w))
  | 0x5 => .ok (.jump (fieldAAA w))
  | 0x6 => .ok (.readKeyboard (fieldX w))
  | 0x7 => .ok .switchMemory
  | 0x8 => .ok (.skipEqual (fieldX w) (fieldY w))
  | 0x9 => .ok (.skipNotEqual (fieldX w) (fieldY w))
  | 0xA => .ok (.setA (fieldAAA w))
  | 0xB => .ok (.setT (fieldBB w))
  | 0xC => .ok (.readT (fieldX w))
  | 0xD => .ok (.convertToBase10 (fieldX w))
  | 0xE => .ok (.convertByteToAscii (fieldX w) (fieldY w))
  | 0xF => .ok (.draw (fieldX w) (fieldY w) (fieldZ w))
  | _ => .error (.unknownOpcode (opcodeOf w))

/-- The instruction of a word: its opcode alone selects it (R91, R96). -/
def decodeWord (w : Word) : Except DecodeError Instr := instrOf (opcodeOf w).toNat w

/-- Decode the first instruction of a list of bytes and give the rest of the list: `byte1` is the first byte (R71, R90). -/
def decode : List Byte → Except DecodeError (Instr × List Byte)
  | byte1 :: byte2 :: rest =>
      match decodeWord (wordOf byte1 byte2) with
      | .ok i => .ok (i, rest)
      | .error e => .error e
  | _ => .error .truncated

/-- The word of an instruction, written from the patterns of R93 and R95, every ignored bit 0 (R102). -/
def encodeWord : Instr → Word
  | .store fX bb => 0x0#4 ++ fX ++ bb
  | .add fX fY fZ => 0x1#4 ++ fX ++ 0#1 ++ fY ++ fZ
  | .sub fX fY fZ => 0x2#4 ++ fX ++ 0#1 ++ fY ++ fZ
  | .read fX => 0x3#4 ++ fX ++ 0#8
  | .write fX => 0x4#4 ++ fX ++ 0#8
  | .jump aaa => 0x5#4 ++ aaa
  | .readKeyboard fX => 0x6#4 ++ fX ++ 0#8
  | .switchMemory => 0x7#4 ++ 0#12
  | .skipEqual fX fY => 0x8#4 ++ fX ++ 0#1 ++ fY ++ 0#4
  | .skipNotEqual fX fY => 0x9#4 ++ fX ++ 0#1 ++ fY ++ 0#4
  | .setA aaa => 0xA#4 ++ aaa
  | .setT bb => 0xB#4 ++ 0#4 ++ bb
  | .readT fX => 0xC#4 ++ fX ++ 0#8
  | .convertToBase10 fX => 0xD#4 ++ fX ++ 0#8
  | .convertByteToAscii fX fY => 0xE#4 ++ fX ++ 0#1 ++ fY ++ 0#4
  | .draw fX fY fZ => 0xF#4 ++ fX ++ 0#1 ++ fY ++ fZ

/-- The two bytes of a word, `byte1` first (R71). -/
def bytesOf (w : Word) : List Byte := [w.extractLsb' 8 8, w.extractLsb' 0 8]

/-- The bytes of an instruction as they lie in memory. -/
def encode (i : Instr) : List Byte := bytesOf (encodeWord i)

/-- The opcode of an instruction (R95). -/
def Instr.opcode : Instr → BitVec 4
  | .store .. => 0x0
  | .add .. => 0x1
  | .sub .. => 0x2
  | .read .. => 0x3
  | .write .. => 0x4
  | .jump .. => 0x5
  | .readKeyboard .. => 0x6
  | .switchMemory => 0x7
  | .skipEqual .. => 0x8
  | .skipNotEqual .. => 0x9
  | .setA .. => 0xA
  | .setT .. => 0xB
  | .readT .. => 0xC
  | .convertToBase10 .. => 0xD
  | .convertByteToAscii .. => 0xE
  | .draw .. => 0xF

/-- The bits of a word that the format of its opcode uses, the opcode among them (R93); the others are ignored (R99). -/
def usedBits (opcode : BitVec 4) : Word :=
  match opcode.toNat with
  | 0x0 => 0xFFFF                                     -- RI
  | 0x1 | 0x2 | 0xF => 0xFF7F                         -- RRR
  | 0x3 | 0x4 | 0x6 | 0xC | 0xD => 0xFF00             -- R
  | 0x8 | 0x9 | 0xE => 0xFF70                         -- RR
  | 0x5 | 0xA => 0xFFFF                               -- A
  | 0xB => 0xF0FF                                     -- I
  | _ => 0xF000                                       -- N

/-- The word that `spec/opcode_table.json` numbers `w` with `nbits` bits: bits above `nbits` are 0. The table's words are
16 bits, `byte1` in the high half. -/
def tableWord (nbits w : Nat) : Word := BitVec.ofNat 16 (w % 2 ^ nbits)

/-- What the decoder reads from the instruction whose bits are `w`, numbered as the opcode table numbers them. -/
def decodeTableWord (nbits w : Nat) : Option Instr :=
  match decode (bytesOf (tableWord nbits w)) with
  | .ok (i, _) => some i
  | .error _ => none

end Sys2Proof
end

