-- ==== Sys2Proof/Machine/Fetch.lean ====
section
/-! DEFINITION. When the CPU agent moves and the fetch (spec/40_execution_cycle.md R120 to R122, R127). -/

namespace Sys2Proof.Machine

/-- What the CPU agent does in its turn. -/
inductive CpuAction where
  /-- No handler runs: no cycle may begin, or the fetch waits for a token. -/
  | wait (s : State)
  /-- Both bytes are fetched: decode and run them. -/
  | run (byte1 byte2 : Byte) (s : State)
  /-- The handler of `i`, blocked before in its keyboard read, goes on. -/
  | resume (i : Instr) (s : State)
deriving DecidableEq, Repr

/-- The second fetch read, at `P +16 1` (R122). -/
def fetchSecond (byte1 : Byte) (s : State) : CpuAction :=
  match busRead (s.pc + 1) s with
  | none => .wait (s.blockIn (.fetchByte2 byte1))
  | some (byte2, s') => .run byte1 byte2 s'

/-- The fetch: `P` first, `P +16 1` second, both ordinary router reads (R122). -/
def fetchFirst (s : State) : CpuAction :=
  match busRead s.pc s with
  | none => .wait (s.blockIn .fetchByte1)
  | some (byte1, s') => fetchSecond byte1 s'

/-- The CPU agent's turn: a cycle begins only in `Running` (R121); a blocked one goes on from the read it waits in,
whatever the lifecycle state is now (R127, R229). With neither, nothing happens (log 7). -/
def cpuAction (s : State) : CpuAction :=
  match s.cycle with
  | .idle => if s.lifecycle = .running then fetchFirst s else .wait s
  | .fetchByte1 => fetchFirst (s.blockIn .idle)
  | .fetchByte2 byte1 => fetchSecond byte1 (s.blockIn .idle)
  | .handlerRead i => .resume i (s.blockIn .idle)

/-- Put a word where the fetch at `P` reads it: in the two cells the router serves there. Where it serves none (`P` at the
keyboard or unmapped), at the start of the ROM, with `P` there. -/
def placeWord (w : Word) (s : State) : State :=
  match route s.config s.pc, route s.config (s.pc + 1) with
  | .cell d i, .cell e j =>
      { s with mem := (s.mem.write d i (w.extractLsb' 8 8)).write e j (w.extractLsb' 0 8) }
  | _, _ =>
      { s with
        pc := s.config.romBase
        mem := (s.mem.write .rom 0 (w.extractLsb' 8 8)).write .rom 1 (w.extractLsb' 0 8) }

/-- Make the CPU agent's next turn begin a cycle: the machine is `Running`, as `start()` leaves it (R223), no cycle is
blocked and no other agent's turn comes first. -/
def readyToRun (s : State) : State := { s with lifecycle := .running, cycle := .idle, schedule := [] }

end Sys2Proof.Machine
end

