-- ==== Sys2Proof/Machine/Orchestrator.lean ====
section
/-! DEFINITION. The orchestrator and the host interface (spec/60_exceptions.md R221 to R231): `initialize()`, the lifecycle
calls, the supply of keyboard tokens. -/

namespace Sys2Proof.Machine

/-- The state `initialize()` leaves (R222, R250, R38): the image loaded, the devices wired, everything else at its reset
value, `P` at `ROM_BASE` (D2). -/
def State.initial (c : Config) (image : List Byte) : State :=
  { State.reset with
    config := c
    pc := c.romBase
    mem := { rom := romCells 0 image, ram := [], display := [] }
    diagnostics := romImageDiagnostics image }

/-- `initialize()` (R222): an ill-formed configuration is refused (R69). -/
def initialiseMachine (c : Config) (image : List Byte) : Host.Outcome State Fault Refusal :=
  if configWf c then .next (State.initial c image) else .refused .illFormedConfiguration

/-- The lifecycle transitions of R227: `none` where the call is a no-op that emits a diagnostic. -/
def lifecycleAfter : LifecycleCall → Lifecycle → Option Lifecycle
  | .start, .stopped => some .running
  | .start, _ => none
  | .pause, .running => some .paused
  | .pause, _ => none
  | .resume, .paused => some .running
  | .resume, _ => none
  | .shutdown, _ => some .shutDown

/-- A lifecycle call of the host (R223 to R227): `shutdown()` stops the timer clock too (R217, R226). -/
def lifecycleCall (c : LifecycleCall) (s : State) : State :=
  match lifecycleAfter c s.lifecycle with
  | some l => { s with lifecycle := l, timerActive := s.timerActive && decide (l ≠ .shutDown) }
  | none => s.emit (.callIgnored c s.lifecycle)

/-- The host supplies a keyboard token: it waits behind those supplied before it (R63, N15; log 4). -/
def supplyToken (t : Token) (s : State) : State := { s with keyboard := s.keyboard ++ [t] }

/-- A step of the timer agent or of the host (R230). A render request changes no state: what it gives is `render` (R67). -/
def performEvent (e : Event) (s : State) : Host.Outcome State Fault Refusal :=
  match e with
  | .tick => .next (tick s)
  | .call c => .next (lifecycleCall c s)
  | .token t => .next (supplyToken t s)
  | .render => .next s
  | .initialise _ _ => .refused .initialiseOutOfOrder

end Sys2Proof.Machine
end

