-- ==== Sys2Proof/Machine/Step.lean ====
section
/-! DEFINITION. One step: one turn of the agent that moves next (spec/60_exceptions.md R230). -/

namespace Sys2Proof.Machine

/-- Decode the two fetched bytes and run the handler (R120, R123). An unknown opcode would be fatal (R201); the decoder
never answers it (R97). -/
def runBytes (byte1 byte2 : Byte) (s : State) : Host.Outcome State Fault Refusal :=
  match decode [byte1, byte2] with
  | .ok (i, _) => exec i s
  | .error (.unknownOpcode op) => .next (raise (.unknownOpcode op) s)
  | .error .truncated => .fault .truncatedFetch

/-- The turn of the CPU agent. -/
def cpuStep (s : State) : Host.Outcome State Fault Refusal :=
  match cpuAction s with
  | .wait s' => .next s'
  | .run byte1 byte2 s' => runBytes byte1 byte2 s'
  | .resume i s' => exec i s'

/-- One step: the turn at the head of the schedule, the CPU's when the schedule is empty. -/
def step (s : State) : Host.Outcome State Fault Refusal :=
  match s.schedule with
  | [] => cpuStep s
  | .cpu :: rest => cpuStep { s with schedule := rest }
  | .event e :: rest => performEvent e { s with schedule := rest }

/-- `s` with the instruction whose bits are `w` placed where the next step fetches it, and the machine ready to begin that
cycle. -/
def State.withFetchWord (s : State) (nbits w : Nat) : State :=
  readyToRun (placeWord (tableWord nbits w) s)

end Sys2Proof.Machine
end

