-- ==== Sys2Proof/WellFormed.lean ====
section
/-! DEFINITION. Well-formed instructions: every register field that the instruction's format uses names one of `r0` to `r7`
(spec/30_encoding.md R98). -/

namespace Sys2Proof

/-- The first register field of the instruction that names no register, with its value; `fX` before `fZ` (R98). Only the
fields the instruction's format uses are looked at. -/
def Instr.badField : Instr → Option (RegField × BitVec 4)
  | .add fX _ fZ | .sub fX _ fZ | .draw fX _ fZ =>
      if 8 ≤ fX.toNat then some (.fX, fX) else if 8 ≤ fZ.toNat then some (.fZ, fZ) else none
  | .store fX _ | .read fX | .write fX | .readKeyboard fX | .skipEqual fX _ | .skipNotEqual fX _
  | .readT fX | .convertToBase10 fX | .convertByteToAscii fX _ =>
      if 8 ≤ fX.toNat then some (.fX, fX) else none
  | .jump _ | .switchMemory | .setA _ | .setT _ => none

/-- The instruction's register fields all name registers (R98). -/
def Instr.wellFormed (i : Instr) : Bool := i.badField.isNone

end Sys2Proof
end

