-- ==== Sys2Proof/Safety.lean ====
section
/-! DEFINITION. The terms in which claims speak of runs: the state a fatal condition leaves, the effect of one routed write,
the invariants, and states that differ in the bank flag alone. -/

namespace Sys2Proof.Safety

open Sys2Proof.Machine

/-- The state that a fatal condition leaves (spec/60_exceptions.md R207, R212; spec/40_execution_cycle.md R125): shut down,
the timer clock stopped, the diagnostic emitted, everything else, `P` among it, as it was. -/
def fatalState (c : FatalCondition) (s : State) : State :=
  { s with
    lifecycle := .shutDown
    timerActive := false
    diagnostics := s.diagnostics ++ [.fatal c s.pc] }

/-- The machine is live: it has not been shut down (R213). -/
def live (s : State) : Bool := decide (s.lifecycle ≠ .shutDown)

/-- The address is in the ROM's range, `base <= a < base + size` (R52, R61, R68). -/
abbrev inRom (c : Config) (a : Addr) : Prop := c.romBase.toNat ≤ a.toNat ∧ a.toNat < c.romBase.toNat + 4096

/-- The address is in the RAM's range, which follows the ROM's (R52, R62, R68). -/
abbrev inRam (c : Config) (a : Addr) : Prop :=
  c.romBase.toNat + 4096 ≤ a.toNat ∧ a.toNat < c.romBase.toNat + 4096 + 4096

/-- The address is the keyboard's one (R52, R63). -/
abbrev atKeyboard (c : Config) (a : Addr) : Prop := a = c.keyboardBase

/-- The address is in the display's range (R52, R65). -/
abbrev inDisplay (c : Config) (a : Addr) : Prop := c.displayBase.toNat ≤ a.toNat ∧ a.toNat < c.displayBase.toNat + 64

/-- The sixteen hexadecimal digits with their values, capital letters (log 5). -/
def hexChar (v : Fin 16) : Char :=
  #v['0', '1', '2', '3', '4', '5', '6', '7', '8', '9', 'A', 'B', 'C', 'D', 'E', 'F'][v]

/-- A routed write at `a` is refused: ROM or the keyboard owns the address (R59, R205). -/
def writeRefused (c : Config) (a : Addr) : Bool :=
  match route c a with
  | .cell .rom _ => true
  | .keyboard => true
  | .cell .ram _ => false
  | .cell .display _ => false
  | .unmapped => false

/-- The state after a routed write that is not refused: the byte stored, or at an unmapped address the diagnostic alone
(R57, R59). -/
def afterWrite (a : Addr) (v : Byte) (s : State) : State :=
  match route s.config a with
  | .cell d i => { s with mem := s.mem.write d i v }
  | .keyboard => s
  | .unmapped => { s with diagnostics := s.diagnostics ++ [.unmappedAccess .write a] }

/-- What a blocked cycle may hold: only READ and READ_KEYBOARD with a register in their field read the keyboard in the
handler (R127). -/
def cycleOk : Cycle → Bool
  | .idle => true
  | .fetchByte1 => true
  | .fetchByte2 _ => true
  | .handlerRead (.read fX) => decide (fX.toNat < 8)
  | .handlerRead (.readKeyboard fX) => decide (fX.toNat < 8)
  | .handlerRead _ => false

/-- The machine's invariant: memory in canonical form; `TimerActive` implies `T > 0` (R33); no timer activity after a
shutdown (R217); neither timer activity nor a cycle before the first `start()` (R218, R227); a blocked cycle waits in a
read that can block (R127). -/
abbrev Inv (s : State) : Prop :=
  s.mem.wf = true
    ∧ (s.timerActive = true → 0 < s.regT.toNat)
    ∧ (s.lifecycle = .shutDown → s.timerActive = false)
    ∧ (s.lifecycle = .stopped → s.timerActive = false ∧ s.cycle = .idle)
    ∧ cycleOk s.cycle = true

/-- `P` is even (R26). -/
abbrev PcEven (s : State) : Prop := s.pc.toNat % 2 = 0

/-- `A` is in 0x0000..0x0FFF (R27, R70). -/
abbrev ALow (s : State) : Prop := s.regA.toNat ≤ 0x0FFF

/-- `s` with the bank flag set to `b`. -/
def withM (b : Bool) (s : State) : State := { s with flagM := b }

/-- Two outcomes agree but for the bank flag of the next state: both go on to states that differ in `M` alone, or both
stop for the same reason. -/
def agreeButM : Host.Outcome State Fault Refusal → Host.Outcome State Fault Refusal → Prop
  | .next t, .next u => u = withM u.flagM t
  | .fault f, .fault g => f = g
  | .refused f, .refused g => f = g
  | _, _ => False

/-- The CPU agent has the next turn, with `rest` the turns after it (R230). -/
def CpuTurn (s : State) (rest : List Turn) : Prop := (s.schedule = [] ∧ rest = []) ∨ s.schedule = .cpu :: rest

end Sys2Proof.Safety
end

