-- ==== Sys2Proof/Certificates/Slice0/Obligations.lean ====
section
/-! DEFINITION. The statements for the provers, from the numbered rules of spec/. A next state is written out in full
(`{ s with … }`), so that a statement about a result is a statement about the frame too: what is not named is unchanged.
Additions to `P` and `A` wrap modulo 65536 in all of them (R76, decision D9). -/

open Sys2Proof Sys2Proof.Machine Sys2Proof.Safety

/-! ### Encoding -/

/-- R95, R102: decoding the bytes of any instruction, with any bytes behind them, gives the instruction back, every operand
at every value its field admits, and leaves the bytes behind. -/
def Obligations.DecodeOfEncode : Prop :=
  ∀ (i : Instr) (rest : List Byte), decode (encode i ++ rest) = .ok (i, rest)

/-- Words written out from R93 and R95, as V-ENC lists them, decode to the instructions they stand for. -/
def Obligations.SpecWordsDecode : Prop :=
  decode [0x07, 0x41] = .ok (.store 7 0x41, [])
    ∧ decode [0x10, 0x92] = .ok (.add 0 1 2, [])
    ∧ decode [0x5A, 0xBC] = .ok (.jump 0xABC, [])
    ∧ decode [0x81, 0xAF] = .ok (.skipEqual 1 2, [])
    ∧ decode [0xBF, 0x10] = .ok (.setT 0x10, [])
    ∧ decode [0xE0, 0x10] = .ok (.convertByteToAscii 0 1, [])
    ∧ decode [0xF0, 0x67] = .ok (.draw 0 6 7, [])

/-- R91, R96, R97: any two bytes decode, to an instruction whose opcode is the high nibble of the first byte, and no others
are read; fewer than two bytes are rejected. So `UnknownOpcode` is never answered. -/
def Obligations.EveryPairOfBytesDecodes : Prop :=
  (∀ (b1 b2 : Byte) (rest : List Byte), ∃ i, decode (b1 :: b2 :: rest) = .ok (i, rest) ∧ i.opcode = b1.extractLsb' 4 4)
    ∧ decode [] = .error .truncated ∧ ∀ b : Byte, decode [b] = .error .truncated

/-- R99 (decision D8): encoding what a word decodes to gives the word with the ignored bits cleared; so two words that agree
on the bits their format uses decode to the same instruction. -/
def Obligations.IgnoredBitsHaveNoEffect : Prop :=
  (∀ (w : Word) (i : Instr), decodeWord w = .ok i → encodeWord i = w &&& usedBits (w.extractLsb' 12 4))
    ∧ ∀ w w' : Word, w.extractLsb' 12 4 = w'.extractLsb' 12 4 →
        w &&& usedBits (w.extractLsb' 12 4) = w' &&& usedBits (w.extractLsb' 12 4) → decodeWord w = decodeWord w'

/-! ### Register load and arithmetic -/

/-- R140. The clause for `fX >= 8` is the rule's *Exceptions*, which R98 decides (D7). -/
def Obligations.StoreLoadsImmediate : Prop :=
  ∀ (s : State) (fX : BitVec 4) (bb : BitVec 8),
    decodeWord (0x0#4 ++ fX ++ bb) = .ok (.store fX bb)
    ∧ (∀ hX : fX.toNat < 8, exec (.store fX bb) s = .next { s with regs := s.regs.set fX.toNat bb, pc := s.pc + 2 })
    ∧ (8 ≤ fX.toNat → exec (.store fX bb) s = .next (fatalState (.invalidRegisterIndex .fX fX) s))

/-- R141. The sum is computed exactly and reduced modulo 256; both sources are read before the destination is written. The
clauses for fields of 8 or more are the rule's *Exceptions*, which R98 decides (D7). -/
def Obligations.AddWritesSum : Prop :=
  ∀ (s : State) (fX : BitVec 4) (n : BitVec 1) (fY : BitVec 3) (fZ : BitVec 4),
    decodeWord (0x1#4 ++ fX ++ n ++ fY ++ fZ) = .ok (.add fX fY fZ)
    ∧ (∀ (hX : fX.toNat < 8) (hZ : fZ.toNat < 8), exec (.add fX fY fZ) s = .next { s with
        regs := s.regs.set fZ.toNat
          (BitVec.ofNat 8 ((s.regs[fX.toNat].toNat + (s.regs[fY.toNat]'fY.isLt).toNat) % 256))
        pc := s.pc + 2 })
    ∧ (8 ≤ fX.toNat → exec (.add fX fY fZ) s = .next (fatalState (.invalidRegisterIndex .fX fX) s))
    ∧ (fX.toNat < 8 → 8 ≤ fZ.toNat → exec (.add fX fY fZ) s = .next (fatalState (.invalidRegisterIndex .fZ fZ) s))

/-- R142. The difference, `rX - rY`, is `x[fX] - x[fY]` when that is not negative, and 256 more otherwise. The clauses for
fields of 8 or more are the rule's *Exceptions*, which R98 decides (D7). -/
def Obligations.SubWritesDifference : Prop :=
  ∀ (s : State) (fX : BitVec 4) (n : BitVec 1) (fY : BitVec 3) (fZ : BitVec 4),
    decodeWord (0x2#4 ++ fX ++ n ++ fY ++ fZ) = .ok (.sub fX fY fZ)
    ∧ (∀ (hX : fX.toNat < 8) (hZ : fZ.toNat < 8), exec (.sub fX fY fZ) s = .next { s with
        regs := s.regs.set fZ.toNat
          (BitVec.ofNat 8 (if (s.regs[fY.toNat]'fY.isLt).toNat ≤ s.regs[fX.toNat].toNat
            then s.regs[fX.toNat].toNat - (s.regs[fY.toNat]'fY.isLt).toNat
            else s.regs[fX.toNat].toNat + 256 - (s.regs[fY.toNat]'fY.isLt).toNat))
        pc := s.pc + 2 })
    ∧ (8 ≤ fX.toNat → exec (.sub fX fY fZ) s = .next (fatalState (.invalidRegisterIndex .fX fX) s))
    ∧ (fX.toNat < 8 → 8 ≤ fZ.toNat → exec (.sub fX fY fZ) s = .next (fatalState (.invalidRegisterIndex .fZ fZ) s))

/-! ### Memory access -/

/-- R150: `A` becomes the immediate's value, odd or even, so it is at most 0x0FFF; nothing else changes but `P`. -/
def Obligations.SetALoadsAddress : Prop :=
  ∀ (s : State) (aaa : BitVec 12),
    decodeWord (0xA#4 ++ aaa) = .ok (.setA aaa)
    ∧ exec (.setA aaa) s = .next { s with regA := BitVec.ofNat 16 aaa.toNat, pc := s.pc + 2 }
    ∧ (BitVec.ofNat 16 aaa.toNat).toNat = aaa.toNat

/-- R151 over what the router answers at `A`: a stored byte; a token at the keyboard address, consumed; no token there, and
the cycle blocks; an unmapped address, 0xFF and a diagnostic. The clause for `fX >= 8` is the rule's *Exceptions*, which R98
decides (D7). -/
def Obligations.ReadLoadsByte : Prop :=
  ∀ (s : State) (fX : BitVec 4) (n : BitVec 8),
    decodeWord (0x3#4 ++ fX ++ n) = .ok (.read fX)
    ∧ (∀ (hX : fX.toNat < 8) (d : Store) (k : Nat), route s.config s.regA = .cell d k →
        exec (.read fX) s = .next { s with regs := s.regs.set fX.toNat (s.mem.read d k), pc := s.pc + 2 })
    ∧ (∀ (hX : fX.toNat < 8) (t : Token) (ts : List Token), route s.config s.regA = .keyboard → s.keyboard = t :: ts →
        exec (.read fX) s = .next { s with regs := s.regs.set fX.toNat t.byte, keyboard := ts, pc := s.pc + 2 })
    ∧ (fX.toNat < 8 → route s.config s.regA = .keyboard → s.keyboard = [] →
        exec (.read fX) s = .next { s with cycle := .handlerRead (.read fX) })
    ∧ (∀ hX : fX.toNat < 8, route s.config s.regA = .unmapped →
        exec (.read fX) s = .next { s with
          regs := s.regs.set fX.toNat 0xFF
          diagnostics := s.diagnostics ++ [.unmappedAccess .read s.regA]
          pc := s.pc + 2 })
    ∧ (8 ≤ fX.toNat → exec (.read fX) s = .next (fatalState (.invalidRegisterIndex .fX fX) s))

/-- R152 over what the router answers at `A`: RAM and the display store the register's byte; ROM and the keyboard refuse,
fatally, with nothing written; an unmapped address emits a diagnostic and the run goes on. The clause for `fX >= 8` is the
rule's *Exceptions*, which R98 decides (D7). -/
def Obligations.WriteStoresRegister : Prop :=
  ∀ (s : State) (fX : BitVec 4) (n : BitVec 8),
    decodeWord (0x4#4 ++ fX ++ n) = .ok (.write fX)
    ∧ (∀ (hX : fX.toNat < 8) (d : Store) (k : Nat), d ≠ .rom → route s.config s.regA = .cell d k →
        exec (.write fX) s = .next { s with mem := s.mem.write d k s.regs[fX.toNat], pc := s.pc + 2 })
    ∧ (fX.toNat < 8 → (∃ k, route s.config s.regA = .cell .rom k) ∨ route s.config s.regA = .keyboard →
        exec (.write fX) s = .next (fatalState (.readOnlyDeviceViolation s.regA) s))
    ∧ (fX.toNat < 8 → route s.config s.regA = .unmapped →
        exec (.write fX) s = .next { s with
          diagnostics := s.diagnostics ++ [.unmappedAccess .write s.regA]
          pc := s.pc + 2 })
    ∧ (8 ≤ fX.toNat → exec (.write fX) s = .next (fatalState (.invalidRegisterIndex .fX fX) s))

/-- R152, R154: the frame of a WRITE that stores: the byte at the bus address `A` becomes the register's, and every other bus
address reads as before. -/
def Obligations.WriteChangesOneByte : Prop :=
  ∀ (s : State) (fX : BitVec 4) (hX : fX.toNat < 8) (x : Byte),
    writeRefused s.config s.regA = false → byteAt s s.regA = some x →
      ∃ t, exec (.write fX) s = .next t ∧ t.regs = s.regs ∧ t.regA = s.regA
        ∧ byteAt t s.regA = some s.regs[fX.toNat] ∧ ∀ a : Addr, a ≠ s.regA → byteAt t a = byteAt s a

/-- R153: `M` is inverted and nothing else changes but `P`; a second execution restores `M`; and no instruction's behaviour
depends on `M`: on two states that differ in `M` alone, each instruction answers states that differ in `M` alone. -/
def Obligations.SwitchMemoryInvertsM : Prop :=
  ∀ (s : State) (n : BitVec 12),
    decodeWord (0x7#4 ++ n) = .ok .switchMemory
    ∧ exec .switchMemory s = .next { s with flagM := !s.flagM, pc := s.pc + 2 }
    ∧ exec .switchMemory { s with flagM := !s.flagM, pc := s.pc + 2 } = .next { s with pc := s.pc + 4 }
    ∧ ∀ (i : Instr) (b : Bool), agreeButM (exec i s) (exec i (withM b s))

/-! ### Control transfer -/

/-- R160: an odd target is fatal and leaves `P` (decision D12); an even one becomes `P`, with nothing added. -/
def Obligations.JumpSetsPc : Prop :=
  ∀ (s : State) (aaa : BitVec 12),
    decodeWord (0x5#4 ++ aaa) = .ok (.jump aaa)
    ∧ (aaa.toNat % 2 = 0 → exec (.jump aaa) s = .next { s with pc := BitVec.ofNat 16 aaa.toNat })
    ∧ (aaa.toNat % 2 = 1 → exec (.jump aaa) s = .next (fatalState (.oddJumpTarget aaa) s))

/-- R161; that `P` wraps modulo 65536 is decision D9. The clause for `fX >= 8` is the rule's *Exceptions*, which R98 decides
(D7). -/
def Obligations.SkipEqualSkips : Prop :=
  ∀ (s : State) (fX : BitVec 4) (n : BitVec 1) (fY : BitVec 3) (m : BitVec 4),
    decodeWord (0x8#4 ++ fX ++ n ++ fY ++ m) = .ok (.skipEqual fX fY)
    ∧ (∀ hX : fX.toNat < 8, exec (.skipEqual fX fY) s =
        .next { s with pc := if s.regs[fX.toNat] = s.regs[fY.toNat]'fY.isLt then s.pc + 4 else s.pc + 2 })
    ∧ (8 ≤ fX.toNat → exec (.skipEqual fX fY) s = .next (fatalState (.invalidRegisterIndex .fX fX) s))

/-- R162; that `P` wraps modulo 65536 is decision D9. The clause for `fX >= 8` is the rule's *Exceptions*, which R98 decides
(D7). -/
def Obligations.SkipNotEqualSkips : Prop :=
  ∀ (s : State) (fX : BitVec 4) (n : BitVec 1) (fY : BitVec 3) (m : BitVec 4),
    decodeWord (0x9#4 ++ fX ++ n ++ fY ++ m) = .ok (.skipNotEqual fX fY)
    ∧ (∀ hX : fX.toNat < 8, exec (.skipNotEqual fX fY) s =
        .next { s with pc := if s.regs[fX.toNat] = s.regs[fY.toNat]'fY.isLt then s.pc + 2 else s.pc + 4 })
    ∧ (8 ≤ fX.toNat → exec (.skipNotEqual fX fY) s = .next (fatalState (.invalidRegisterIndex .fX fX) s))

/-! ### Keyboard, timer, display -/

/-- R170: the oldest token is consumed and its byte loaded; with no token the cycle blocks and nothing else changes. The
clause for `fX >= 8` is the rule's *Exceptions*, which R98 decides (D7): no token is consumed. -/
def Obligations.ReadKeyboardLoadsToken : Prop :=
  ∀ (s : State) (fX : BitVec 4) (n : BitVec 8),
    decodeWord (0x6#4 ++ fX ++ n) = .ok (.readKeyboard fX)
    ∧ (∀ (hX : fX.toNat < 8) (t : Token) (ts : List Token), s.keyboard = t :: ts →
        exec (.readKeyboard fX) s = .next { s with
          regs := s.regs.set fX.toNat t.byte, keyboard := ts, pc := s.pc + 2 })
    ∧ (fX.toNat < 8 → s.keyboard = [] →
        exec (.readKeyboard fX) s = .next { s with cycle := .handlerRead (.readKeyboard fX) })
    ∧ (8 ≤ fX.toNat → exec (.readKeyboard fX) s = .next (fatalState (.invalidRegisterIndex .fX fX) s))

/-- R215, and R171 for the word: `T` becomes the immediate and the activity runs exactly if it is not 0. The machine is not shut down: what
SET_T does after a shutdown the spec leaves open (U9); `SetTAfterShutdown` states the model's choice. -/
def Obligations.SetTLoadsTimer : Prop :=
  ∀ (s : State) (n : BitVec 4) (bb : BitVec 8),
    decodeWord (0xB#4 ++ n ++ bb) = .ok (.setT bb)
    ∧ (s.lifecycle ≠ .shutDown →
        exec (.setT bb) s = .next { s with regT := bb, timerActive := decide (0 < bb.toNat), pc := s.pc + 2 })

/-- THE MODEL'S CHOICE (log 6; U9 leaves it open): a SET_T that completes after a shutdown writes `T` and starts no timer
activity. -/
def Obligations.SetTAfterShutdown : Prop :=
  ∀ (s : State) (bb : BitVec 8), s.lifecycle = .shutDown →
    exec (.setT bb) s = .next { s with regT := bb, timerActive := false, pc := s.pc + 2 }

/-- R172. The clause for `fX >= 8` is the rule's *Exceptions*, which R98 decides (D7). -/
def Obligations.ReadTCopiesTimer : Prop :=
  ∀ (s : State) (fX : BitVec 4) (n : BitVec 8),
    decodeWord (0xC#4 ++ fX ++ n) = .ok (.readT fX)
    ∧ (∀ hX : fX.toNat < 8, exec (.readT fX) s = .next { s with regs := s.regs.set fX.toNat s.regT, pc := s.pc + 2 })
    ∧ (8 ≤ fX.toNat → exec (.readT fX) s = .next (fatalState (.invalidRegisterIndex .fX fX) s))

/-- R173: the character, the row and the column are the contents of the three registers. In range, the one cell at
`row * 8 + col` is written; out of range, the first failing check in the order character, row, column is fatal and the
display is unchanged (the order is decision D20). The clauses for fields of 8 or more are the rule's *Exceptions*, which R98
decides (D7). -/
def Obligations.DrawWritesCell : Prop :=
  ∀ (s : State) (fX : BitVec 4) (n : BitVec 1) (fY : BitVec 3) (fZ : BitVec 4),
    decodeWord (0xF#4 ++ fX ++ n ++ fY ++ fZ) = .ok (.draw fX fY fZ)
    ∧ (∀ (hX : fX.toNat < 8) (hZ : fZ.toNat < 8) (c row col : Byte),
        s.regs[fX.toNat] = c → s.regs[fY.toNat]'fY.isLt = row → s.regs[fZ.toNat] = col →
        (c.toNat ≤ 0x7F → row.toNat < 8 → col.toNat < 8 → exec (.draw fX fY fZ) s = .next { s with
            mem := s.mem.write .display (row.toNat * 8 + col.toNat) c, pc := s.pc + 2 })
        ∧ (0x7F < c.toNat → exec (.draw fX fY fZ) s = .next (fatalState (.drawOperandOutOfRange .character c) s))
        ∧ (c.toNat ≤ 0x7F → 8 ≤ row.toNat →
            exec (.draw fX fY fZ) s = .next (fatalState (.drawOperandOutOfRange .row row) s))
        ∧ (c.toNat ≤ 0x7F → row.toNat < 8 → 8 ≤ col.toNat →
            exec (.draw fX fY fZ) s = .next (fatalState (.drawOperandOutOfRange .column col) s)))
    ∧ (8 ≤ fX.toNat → exec (.draw fX fY fZ) s = .next (fatalState (.invalidRegisterIndex .fX fX) s))
    ∧ (fX.toNat < 8 → 8 ≤ fZ.toNat → exec (.draw fX fY fZ) s = .next (fatalState (.invalidRegisterIndex .fZ fZ) s))

/-! ### Conversion -/

/-- R180: the hundreds, tens and ones digits go to `A`, `A +16 1`, `A +16 2`, each routed on its own. If none of the three
addresses refuses, all three writes happen (at an unmapped address the diagnostic alone) and `P` advances; otherwise the
first refused write is fatal, after the writes before it and with `P` as it was (decision D13). The clause for `fX >= 8` is
the rule's *Exceptions*, which R98 decides (D7). -/
def Obligations.ConvertToBase10WritesDigits : Prop :=
  ∀ (s : State) (fX : BitVec 4) (n : BitVec 8),
    decodeWord (0xD#4 ++ fX ++ n) = .ok (.convertToBase10 fX)
    ∧ (∀ (hX : fX.toNat < 8) (h t o : Byte) (s1 s2 s3 : State),
        h = BitVec.ofNat 8 (s.regs[fX.toNat].toNat / 100) → t = BitVec.ofNat 8 (s.regs[fX.toNat].toNat / 10 % 10) →
        o = BitVec.ofNat 8 (s.regs[fX.toNat].toNat % 10) →
        s1 = afterWrite s.regA h s → s2 = afterWrite (s.regA + 1) t s1 → s3 = afterWrite (s.regA + 2) o s2 →
        (writeRefused s.config s.regA = false → writeRefused s.config (s.regA + 1) = false →
          writeRefused s.config (s.regA + 2) = false →
            exec (.convertToBase10 fX) s = .next { s3 with pc := s.pc + 2 })
        ∧ (writeRefused s.config s.regA = true →
            exec (.convertToBase10 fX) s = .next (fatalState (.readOnlyDeviceViolation s.regA) s))
        ∧ (writeRefused s.config s.regA = false → writeRefused s.config (s.regA + 1) = true →
            exec (.convertToBase10 fX) s = .next (fatalState (.readOnlyDeviceViolation (s.regA + 1)) s1))
        ∧ (writeRefused s.config s.regA = false → writeRefused s.config (s.regA + 1) = false →
            writeRefused s.config (s.regA + 2) = true →
              exec (.convertToBase10 fX) s = .next (fatalState (.readOnlyDeviceViolation (s.regA + 2)) s2)))
    ∧ (8 ≤ fX.toNat → exec (.convertToBase10 fX) s = .next (fatalState (.invalidRegisterIndex .fX fX) s))

/-- R180: the frame of a CONVERT_TO_BASE_10 that completes: whichever of its three addresses holds a byte holds its digit
after it, every other bus address reads as before, and the registers, `A`, `T` and `M` are unchanged. -/
def Obligations.ConvertToBase10ChangesThreeBytes : Prop :=
  ∀ (s : State) (fX : BitVec 4) (hX : fX.toNat < 8),
    writeRefused s.config s.regA = false → writeRefused s.config (s.regA + 1) = false →
    writeRefused s.config (s.regA + 2) = false →
      ∃ t, exec (.convertToBase10 fX) s = .next t ∧ t.pc = s.pc + 2
        ∧ t.regs = s.regs ∧ t.regA = s.regA ∧ t.regT = s.regT ∧ t.flagM = s.flagM
        ∧ (∀ x, byteAt s s.regA = some x →
            byteAt t s.regA = some (BitVec.ofNat 8 (s.regs[fX.toNat].toNat / 100)))
        ∧ (∀ x, byteAt s (s.regA + 1) = some x →
            byteAt t (s.regA + 1) = some (BitVec.ofNat 8 (s.regs[fX.toNat].toNat / 10 % 10)))
        ∧ (∀ x, byteAt s (s.regA + 2) = some x →
            byteAt t (s.regA + 2) = some (BitVec.ofNat 8 (s.regs[fX.toNat].toNat % 10)))
        ∧ ∀ a : Addr, a ≠ s.regA → a ≠ s.regA + 1 → a ≠ s.regA + 2 → byteAt t a = byteAt s a

/-- R181, R182: a source of at most 0x0F gives the code of its hexadecimal digit (0x30 to 0x39, 0x41 to 0x46) in `x[fY]`; a
larger one is fatal with the destination unchanged. That `'0'` is 0x30 is the spec's G1. The clause for `fX >= 8` is the
rule's *Exceptions*, which R98 decides (D7). -/
def Obligations.ConvertByteToAsciiWritesDigit : Prop :=
  ∀ (s : State) (fX : BitVec 4) (n : BitVec 1) (fY : BitVec 3) (m : BitVec 4),
    decodeWord (0xE#4 ++ fX ++ n ++ fY ++ m) = .ok (.convertByteToAscii fX fY)
    ∧ (∀ (hX : fX.toNat < 8) (v : Byte), s.regs[fX.toNat] = v →
        (v.toNat ≤ 9 → exec (.convertByteToAscii fX fY) s = .next { s with
            regs := s.regs.set fY.toNat (BitVec.ofNat 8 (0x30 + v.toNat)) fY.isLt, pc := s.pc + 2 })
        ∧ (10 ≤ v.toNat → v.toNat ≤ 0x0F → exec (.convertByteToAscii fX fY) s = .next { s with
            regs := s.regs.set fY.toNat (BitVec.ofNat 8 (0x41 + (v.toNat - 10))) fY.isLt, pc := s.pc + 2 })
        ∧ (0x0F < v.toNat →
            exec (.convertByteToAscii fX fY) s = .next (fatalState (.asciiOperandOutOfRange v) s)))
    ∧ (8 ≤ fX.toNat → exec (.convertByteToAscii fX fY) s = .next (fatalState (.invalidRegisterIndex .fX fX) s))

/-! ### All instructions -/

/-- R98, R206 (decision D7): an instruction with a register field of 8..15 that its format uses is fatal before anything
else: only the lifecycle state, the timer activity and the diagnostics change, and no token is consumed. -/
def Obligations.InvalidRegisterIsFatal : Prop :=
  ∀ (i : Instr) (s : State) (f : RegField) (v : BitVec 4), i.badField = some (f, v) →
    exec i s = .next (fatalState (.invalidRegisterIndex f v) s)

/-- R200, R207, R212: no instruction stops the model, on any state: each completes, blocks, or takes its fatal condition. -/
def Obligations.EveryInstructionAnswersNext : Prop :=
  ∀ (i : Instr) (s : State), ∃ t, exec i s = .next t

/-- R124, R125 (C9, decision D12): an instruction other than JUMP and the skips advances `P` by exactly 2 or leaves it; it
leaves it only where it was fatal, with the diagnostic naming the address of the instruction, or blocked in its keyboard
read. -/
def Obligations.AdvanceByTwoOrFatalOrBlocked : Prop :=
  ∀ (i : Instr) (s t : State), exec i s = .next t →
    (∀ aaa, i ≠ .jump aaa) → (∀ fX fY, i ≠ .skipEqual fX fY) → (∀ fX fY, i ≠ .skipNotEqual fX fY) →
      t.pc = s.pc + 2
        ∨ (t.pc = s.pc ∧ t.lifecycle = .shutDown ∧ t.timerActive = false
            ∧ ∃ c, t.diagnostics.getLast? = some (.fatal c s.pc))
        ∨ t = { s with cycle := .handlerRead i }

/-! ### Memory and the router -/

/-- R54 with R52, R53: dispatch is by the first device, in the order ROM, RAM, Keyboard, Display, whose range contains the
address, and to no other, with `offset = address - base`. It is a function of the configuration and the address alone, so
nothing is cached between accesses; and it holds for every configuration, mis-wired ones too. -/
def Obligations.RouterFirstMatch : Prop :=
  ∀ (c : Config) (a : Addr),
    (inRom c a → route c a = .cell .rom (a.toNat - c.romBase.toNat))
    ∧ (¬inRom c a → inRam c a → route c a = .cell .ram (a.toNat - (c.romBase.toNat + 4096)))
    ∧ (¬inRom c a → ¬inRam c a → atKeyboard c a → route c a = .keyboard)
    ∧ (¬inRom c a → ¬inRam c a → ¬atKeyboard c a → inDisplay c a →
        route c a = .cell .display (a.toNat - c.displayBase.toNat))
    ∧ (¬inRom c a → ¬inRam c a → ¬atKeyboard c a → ¬inDisplay c a → route c a = .unmapped)

/-- R55, R69: in a well-formed configuration at most one device contains any address. -/
def Obligations.WellFormedConfigOneOwner : Prop :=
  ∀ (c : Config) (a : Addr) (d e : Device), configWf c = true →
    deviceOwns c a d = true → deviceOwns c a e = true → d = e

/-- R58 (with R63 for the keyboard): what MemRead gives at every address, by the first device whose range contains it: the
stored byte with no side effect; the next token, consumed; blocked with no token; 0xFF with a diagnostic where there is no
device. It has no fatal outcome. -/
def Obligations.MemReadByTarget : Prop :=
  ∀ (a : Addr) (s : State),
    (inRom s.config a → busRead a s = some (s.mem.read .rom (a.toNat - s.config.romBase.toNat), s))
    ∧ (¬inRom s.config a → inRam s.config a →
        busRead a s = some (s.mem.read .ram (a.toNat - (s.config.romBase.toNat + 4096)), s))
    ∧ (¬inRom s.config a → ¬inRam s.config a → atKeyboard s.config a →
        (∀ t ts, s.keyboard = t :: ts → busRead a s = some (t.byte, { s with keyboard := ts }))
        ∧ (s.keyboard = [] → busRead a s = none))
    ∧ (¬inRom s.config a → ¬inRam s.config a → ¬atKeyboard s.config a → inDisplay s.config a →
        busRead a s = some (s.mem.read .display (a.toNat - s.config.displayBase.toNat), s))
    ∧ (¬inRom s.config a → ¬inRam s.config a → ¬atKeyboard s.config a → ¬inDisplay s.config a →
        busRead a s = some (0xFF, { s with diagnostics := s.diagnostics ++ [.unmappedAccess .read a] }))

/-- R59: what MemWrite does at every address, by the first device whose range contains it: ROM and the keyboard refuse with
`ReadOnlyDeviceViolation`; RAM and the display store; with no device nothing is stored and a diagnostic is emitted. -/
def Obligations.MemWriteByTarget : Prop :=
  ∀ (a : Addr) (v : Byte) (s : State),
    (inRom s.config a → busWrite a v s = .error (.readOnlyDeviceViolation a))
    ∧ (¬inRom s.config a → inRam s.config a →
        busWrite a v s = .ok { s with mem := s.mem.write .ram (a.toNat - (s.config.romBase.toNat + 4096)) v })
    ∧ (¬inRom s.config a → ¬inRam s.config a → atKeyboard s.config a →
        busWrite a v s = .error (.readOnlyDeviceViolation a))
    ∧ (¬inRom s.config a → ¬inRam s.config a → ¬atKeyboard s.config a → inDisplay s.config a →
        busWrite a v s = .ok { s with mem := s.mem.write .display (a.toNat - s.config.displayBase.toNat) v })
    ∧ (¬inRom s.config a → ¬inRam s.config a → ¬atKeyboard s.config a → ¬inDisplay s.config a →
        busWrite a v s = .ok { s with diagnostics := s.diagnostics ++ [.unmappedAccess .write a] })

/-- R62, R65, R78: a read returns the last byte written there, and a write leaves every other byte of every device alone. -/
def Obligations.StorageReadAfterWrite : Prop :=
  ∀ (m : Memory) (d : Store) (k : Nat) (v : Byte),
    (m.write d k v).read d k = v
    ∧ ∀ (e : Store) (j : Nat), (e ≠ d ∨ j ≠ k) → (m.write d k v).read e j = m.read e j

/-- R51, R170, R173 (decision D19): in a well-formed configuration the direct device accesses of READ_KEYBOARD and DRAW equal
router accesses at `KEYBOARD_BASE` and at `DISPLAY_BASE + row * 8 + col`. -/
def Obligations.DirectAccessEqualsRouted : Prop :=
  ∀ s : State, configWf s.config = true →
    busRead s.config.keyboardBase s = keyboardRead s
    ∧ ∀ (row col c : Byte), row.toNat < 8 → col.toNat < 8 →
        busWrite (s.config.displayBase + BitVec.ofNat 16 (row.toNat * 8 + col.toNat)) c s
          = .ok (drawCell (row.toNat * 8 + col.toNat) c s)

/-- R60, R222, R38, R250: `initialize()` loads the image, padded with zero bytes or truncated at 4096, with the diagnostic of
either; the dropped bytes do not reach the RAM; the RAM is zero, the display blank, the configuration the one given and the
lifecycle state `Stopped`. The values of the registers, of `P` and of `TimerActive` are the spec's decisions D1 to D6
(log 1), the empty keyboard input and schedule the model's (log 4, log 7). -/
def Obligations.InitialiseLoadsImage : Prop :=
  ∀ (c : Config) (image : List Byte), configWf c = true →
    ∃ t, initialiseMachine c image = .next t ∧ t = State.initial c image
      ∧ (∀ i, i < 4096 → t.mem.read .rom i = image.getD i 0x00)
      ∧ (∀ i, t.mem.read .ram i = 0x00)
      ∧ (∀ i, t.mem.read .display i = 0x20)
      ∧ (image.length < 4096 → t.diagnostics = [.romImagePadded])
      ∧ (image.length = 4096 → t.diagnostics = [])
      ∧ (4096 < image.length → t.diagnostics = [.romImageTruncated])
      ∧ (∀ n : Fin 8, t.regs[n.val] = 0x00)
      ∧ t.pc = c.romBase ∧ t.regA = 0x0000 ∧ t.regT = 0x00 ∧ t.flagM = false ∧ t.timerActive = false
      ∧ t.cycle = .idle ∧ t.lifecycle = .stopped ∧ t.config = c ∧ t.keyboard = [] ∧ t.schedule = []

/-- R64 where it states the byte. With the digits `0` to `9` and `A` to `F` for 0 to 15: one or two digits; `0x` and one to
seven digits, the value modulo 256; the empty token, and white space alone; a text with a character that no reading takes
for a digit or for white space, with the prefix or without. That capital letters are digits, the bound of seven and what
white space is are the model's (log 5). And D17: every byte can come of a token. -/
def Obligations.KeyboardTokenBytes : Prop :=
  (∀ v, tokenByte [hexChar v] = some (BitVec.ofNat 8 v.val))
  ∧ (∀ v u, tokenByte [hexChar v, hexChar u] = some (BitVec.ofNat 8 (v.val * 16 + u.val)))
  ∧ (∀ vs : List (Fin 16), vs ≠ [] → vs.length ≤ 7 →
      tokenByte ('0' :: 'x' :: vs.map hexChar)
        = some (BitVec.ofNat 8 (vs.foldl (fun value v => value * 16 + v.val) 0 % 256)))
  ∧ tokenByte [] = some 0x00
  ∧ (∀ cs : List Char, (∀ c ∈ cs, isBlank c = true) → tokenByte cs = some 0x00)
  ∧ (∀ cs : List Char, (∃ c ∈ cs, isHexChar c = false ∧ isBlank c = false) →
      tokenByte ('0' :: 'x' :: cs) = some 0x00 ∧ tokenByte ('0' :: 'X' :: cs) = some 0x00
        ∧ ((cs.dropWhile isBlank).take 2 ≠ ['0', 'x'] → (cs.dropWhile isBlank).take 2 ≠ ['0', 'X'] →
            tokenByte cs = some 0x00))
  ∧ (∀ c : Char, isHexChar c = true ↔
      (0x30 ≤ c.toNat ∧ c.toNat ≤ 0x39) ∨ (0x41 ≤ c.toNat ∧ c.toNat ≤ 0x46) ∨ (0x61 ≤ c.toNat ∧ c.toNat ≤ 0x66))
  ∧ ∀ b : Byte, ∃ t : Token, t.byte = b

/-- R66, R67: row `r` of the rendered view is the eight cells `DISPLAY[r*8]` to `DISPLAY[r*8+7]`, printable ones as their
character and the others as `.`, and a newline; the eight rows stand between the banner's header and footer; a render
request leaves the state as it is. -/
def Obligations.RenderShowsDisplay : Prop :=
  ∀ s : State,
    (∀ r c, r < 8 → c < 8 → (renderRow s r)[c]? =
        some (if 0x20 ≤ (s.mem.read .display (r * 8 + c)).toNat ∧ (s.mem.read .display (r * 8 + c)).toNat ≤ 0x7E
          then Char.ofNat (s.mem.read .display (r * 8 + c)).toNat else '.'))
    ∧ (∀ r, (renderRow s r).length = 9 ∧ (renderRow s r)[8]? = some '\n')
    ∧ render s = Config.displayHeader ++ (renderRow s 0 ++ renderRow s 1 ++ renderRow s 2 ++ renderRow s 3
        ++ renderRow s 4 ++ renderRow s 5 ++ renderRow s 6 ++ renderRow s 7) ++ Config.displayFooter
    ∧ ∀ rest, s.schedule = .event .render :: rest → step s = .next { s with schedule := rest }

/-! ### The timer clock -/

/-- R216: a tick falls only while `TimerActive` is set; it takes one from `T` if `T` is above 0, and clears `TimerActive` if
`T` is then 0; it reads and writes nothing else. -/
def Obligations.TickDecrementsTimer : Prop :=
  ∀ (s : State) (rest : List Turn), s.schedule = .event .tick :: rest →
    (s.timerActive = true → 0 < s.regT.toNat → step s = .next { s with
        regT := BitVec.ofNat 8 (s.regT.toNat - 1), timerActive := decide (s.regT.toNat ≠ 1), schedule := rest })
    ∧ (s.timerActive = true → s.regT.toNat = 0 → step s = .next { s with timerActive := false, schedule := rest })
    ∧ (s.timerActive = false → step s = .next { s with schedule := rest })

/-- R216, R236 (S10, for any value): from an active timer at `T > 0`, `k` ticks with `k` at most `T` leave `T - k`, and the
activity goes on exactly if that is above 0. -/
def Obligations.TicksRunDown : Prop :=
  ∀ (k : Nat) (s : State) (rest : List Turn), s.schedule = List.replicate k (.event .tick) ++ rest →
    s.timerActive = true → 0 < s.regT.toNat → k ≤ s.regT.toNat →
      Sys2Proof.core.run k s = .next { s with
        regT := BitVec.ofNat 8 (s.regT.toNat - k), timerActive := decide (k < s.regT.toNat), schedule := rest }

/-- R28, R172, R257: no step raises `T` but one in which the CPU runs a SET_T, on a state that differs from `s` in the
schedule, the blocked cycle, the keyboard input and the diagnostics alone. -/
def Obligations.TimerNeverRises : Prop :=
  ∀ s t : State, step s = .next t →
    t.regT.toNat ≤ s.regT.toNat
      ∨ ∃ bb ts ds rest, CpuTurn s rest
          ∧ step s = exec (.setT bb) { s with cycle := .idle, keyboard := ts, diagnostics := ds, schedule := rest }

/-! ### The lifecycle and the host -/

/-- R223 to R227 (the cells outside DOC00's transitions are decision D16): the whole transition table: what each call does in
each lifecycle state. Where it is a no-op, only the diagnostic is emitted; `shutdown()` stops the timer clock and leaves `T`;
nothing else changes. -/
def Obligations.LifecycleCalls : Prop :=
  ∀ (s : State) (rest : List Turn) (c : LifecycleCall), s.schedule = .event (.call c) :: rest →
    (c = .shutdown → step s = .next { s with lifecycle := .shutDown, timerActive := false, schedule := rest })
    ∧ (c = .start → s.lifecycle = .stopped → step s = .next { s with lifecycle := .running, schedule := rest })
    ∧ (c = .pause → s.lifecycle = .running → step s = .next { s with lifecycle := .paused, schedule := rest })
    ∧ (c = .resume → s.lifecycle = .paused → step s = .next { s with lifecycle := .running, schedule := rest })
    ∧ ((c = .start ∧ s.lifecycle ≠ .stopped) ∨ (c = .pause ∧ s.lifecycle ≠ .running)
          ∨ (c = .resume ∧ s.lifecycle ≠ .paused) →
        step s = .next { s with diagnostics := s.diagnostics ++ [.callIgnored c s.lifecycle], schedule := rest })

/-- R121, R252: with no cycle in progress and the lifecycle state not `Running`, the CPU's turn changes nothing. -/
def Obligations.NoCycleUnlessRunning : Prop :=
  ∀ (s : State) (rest : List Turn), CpuTurn s rest → s.cycle = .idle → s.lifecycle ≠ .running →
    step s = .next { s with schedule := rest }

/-- R213, R226, R229: nothing leaves `ShutDown`; and with no cycle in progress no register, no memory byte and no timer
value changes there any more. -/
def Obligations.ShutDownIsTerminal : Prop :=
  ∀ s t : State, s.lifecycle = .shutDown → step s = .next t →
    t.lifecycle = .shutDown
    ∧ (s.cycle = .idle → s.timerActive = false →
        t.cycle = .idle ∧ t.timerActive = false ∧ t.regs = s.regs ∧ t.pc = s.pc ∧ t.regA = s.regA ∧ t.regT = s.regT
          ∧ t.flagM = s.flagM ∧ t.mem = s.mem)

/-- R36, R63, R230: a turn of the timer clock or the host changes no general register, `P`, `A`, `M`, memory, blocked cycle or
configuration; `T` only by a tick; the lifecycle state only by a lifecycle call; the keyboard input only by a token. And a
token that the host supplies is kept behind those before it, with nothing else changed (the order and the unbounded buffer
are the model's, log 4). -/
def Obligations.OtherAgentsKeepCpuState : Prop :=
  ∀ (s : State) (e : Event) (rest : List Turn), s.schedule = .event e :: rest →
    (∀ t, step s = .next t →
      t.regs = s.regs ∧ t.pc = s.pc ∧ t.regA = s.regA ∧ t.flagM = s.flagM ∧ t.mem = s.mem ∧ t.cycle = s.cycle
        ∧ t.config = s.config
        ∧ (e ≠ .tick → t.regT = s.regT)
        ∧ ((∀ c, e ≠ .call c) → t.lifecycle = s.lifecycle)
        ∧ ((∀ k, e ≠ .token k) → t.keyboard = s.keyboard))
    ∧ ∀ k, e = .token k → step s = .next { s with keyboard := s.keyboard ++ [k], schedule := rest }

/-- R222, R69 (decisions D6, D11): the only step that answers no next state is a second `initialize()`, which is refused;
and `initialize()` refuses exactly the ill-formed configurations. -/
def Obligations.OnlyInitialiseIsRefused : Prop :=
  (∀ s : State, (∃ t, step s = .next t)
      ∨ (step s = .refused .initialiseOutOfOrder ∧ ∃ c image rest, s.schedule = .event (.initialise c image) :: rest))
  ∧ ∀ (c : Config) (image : List Byte), configWf c = false →
      initialiseMachine c image = .refused .illFormedConfiguration

/-! ### Blocking -/

/-- R127, R256: a cycle blocked in any of its keyboard reads (in READ_KEYBOARD, in READ, in the fetch of `byte1` or of `byte2`),
with no token supplied, stays blocked through the CPU's turn in every lifecycle state, and no state changes but the
schedule. -/
def Obligations.BlockedReadWaits : Prop :=
  ∀ (s : State) (rest : List Turn), CpuTurn s rest → s.keyboard = [] →
    (∀ fX : BitVec 4, fX.toNat < 8 → s.cycle = .handlerRead (.readKeyboard fX) →
        step s = .next { s with schedule := rest })
    ∧ (∀ fX : BitVec 4, fX.toNat < 8 → s.cycle = .handlerRead (.read fX) → route s.config s.regA = .keyboard →
        step s = .next { s with schedule := rest })
    ∧ (s.cycle = .fetchByte1 → route s.config s.pc = .keyboard → step s = .next { s with schedule := rest })
    ∧ (∀ b1, s.cycle = .fetchByte2 b1 → route s.config (s.pc + 1) = .keyboard →
        step s = .next { s with schedule := rest })

/-- R127, R229 (decision D21): a cycle blocked in any of its keyboard reads goes on from that read at the CPU's turn once a
token is there, and runs to its end with all its effects, whatever the lifecycle state has become. READ_KEYBOARD and READ
load the token's byte; a fetch takes it for the byte it waits for, keeps the byte fetched before, and runs the instruction
on the state with the token consumed and the lifecycle state as it is. -/
def Obligations.BlockedReadCompletes : Prop :=
  ∀ (s : State) (rest : List Turn) (t : Token) (ts : List Token), CpuTurn s rest → s.keyboard = t :: ts →
    (∀ (fX : BitVec 4) (hX : fX.toNat < 8), s.cycle = .handlerRead (.readKeyboard fX) →
        step s = .next { s with
          regs := s.regs.set fX.toNat t.byte, pc := s.pc + 2, keyboard := ts, cycle := .idle, schedule := rest })
    ∧ (∀ (fX : BitVec 4) (hX : fX.toNat < 8), s.cycle = .handlerRead (.read fX) → route s.config s.regA = .keyboard →
        step s = .next { s with
          regs := s.regs.set fX.toNat t.byte, pc := s.pc + 2, keyboard := ts, cycle := .idle, schedule := rest })
    ∧ (∀ b2 i, s.cycle = .fetchByte1 → route s.config s.pc = .keyboard → byteAt s (s.pc + 1) = some b2 →
        decode [t.byte, b2] = .ok (i, []) → step s = exec i { s with keyboard := ts, cycle := .idle, schedule := rest })
    ∧ (∀ b1 i, s.cycle = .fetchByte2 b1 → route s.config (s.pc + 1) = .keyboard →
        decode [b1, t.byte] = .ok (i, []) → step s = exec i { s with keyboard := ts, cycle := .idle, schedule := rest })

/-! ### The step -/

/-- R120, R122: when a cycle may begin and the two bytes the machine stores at `P` and `P +16 1` decode to `i`, the CPU's
turn is `exec` of `i`, on the state with the turn taken off the schedule. -/
def Obligations.StepRunsDecodedInstruction : Prop :=
  ∀ (s : State) (rest : List Turn) (b1 b2 : Byte) (i : Instr),
    CpuTurn s rest → s.cycle = .idle → s.lifecycle = .running →
    byteAt s s.pc = some b1 → byteAt s (s.pc + 1) = some b2 → decode [b1, b2] = .ok (i, []) →
      step s = exec i { s with schedule := rest }

/-- R122, R127, R229: the fetch is two ordinary router reads, `P` first: what they consume and emit is in the state the
instruction runs on; a read that blocks leaves the cycle waiting in it, with the byte fetched before it kept. A fetch that
begins (in `Running`, with no cycle in progress) and one that waits in its first read (in every lifecycle state) do the
same; one that waits in its second read does only that read again. -/
def Obligations.FetchGoesThroughRouter : Prop :=
  ∀ (s : State) (rest : List Turn), CpuTurn s rest →
    ((s.cycle = .idle ∧ s.lifecycle = .running) ∨ s.cycle = .fetchByte1 →
      (∀ b1 s1 b2 s2 i, busRead s.pc { s with cycle := .idle, schedule := rest } = some (b1, s1) →
          busRead (s.pc + 1) s1 = some (b2, s2) → decode [b1, b2] = .ok (i, []) → step s = exec i s2)
      ∧ (busRead s.pc { s with cycle := .idle, schedule := rest } = none →
          step s = .next { s with cycle := .fetchByte1, schedule := rest })
      ∧ (∀ b1 s1, busRead s.pc { s with cycle := .idle, schedule := rest } = some (b1, s1) →
          busRead (s.pc + 1) s1 = none → step s = .next { s1 with cycle := .fetchByte2 b1 }))
    ∧ ∀ b1, s.cycle = .fetchByte2 b1 →
      (∀ b2 s2 i, busRead (s.pc + 1) { s with cycle := .idle, schedule := rest } = some (b2, s2) →
          decode [b1, b2] = .ok (i, []) → step s = exec i s2)
      ∧ (busRead (s.pc + 1) { s with cycle := .idle, schedule := rest } = none →
          step s = .next { s with schedule := rest })

/-- R122, R259: a fetch from two unmapped addresses gives the word `FFFF`: two diagnostics and then the fatal
`InvalidRegisterIndex(fX, 15)` (decision D7), with `P` as it was. -/
def Obligations.UnmappedFetchIsFatal : Prop :=
  ∀ (s : State) (rest : List Turn), CpuTurn s rest → s.cycle = .idle → s.lifecycle = .running →
    route s.config s.pc = .unmapped → route s.config (s.pc + 1) = .unmapped →
      step s = .next (fatalState (.invalidRegisterIndex .fX 15) { s with
        schedule := rest
        diagnostics := s.diagnostics ++ [.unmappedAccess .read s.pc, .unmappedAccess .read (s.pc + 1)] })

/-- R254: a JUMP to its own even address changes no state. -/
def Obligations.SelfJumpChangesNothing : Prop :=
  ∀ (s : State) (rest : List Turn) (b1 b2 : Byte) (aaa : BitVec 12),
    CpuTurn s rest → s.cycle = .idle → s.lifecycle = .running →
    byteAt s s.pc = some b1 → byteAt s (s.pc + 1) = some b2 → encode (.jump aaa) = [b1, b2] →
    s.pc.toNat = aaa.toNat → s.pc.toNat % 2 = 0 → step s = .next { s with schedule := rest }

/-! ### Invariants and whole-machine rules -/

/-- R33, R217, R218, R127: every step keeps the machine's invariant: storage in canonical form, `TimerActive` only with
`T > 0`, no timer activity after a shutdown, neither timer activity nor a cycle before `start()`, and a blocked cycle only in
a read that can block. -/
def Obligations.StepKeepsInv : Prop :=
  ∀ s t : State, Inv s → step s = .next t → Inv t

/-- R38, R26, R27: the invariants hold at reset, and in the state `initialize()` leaves for every configuration and image, the
even `P` for an even `ROM_BASE`. That `P` is `ROM_BASE` and `A` is 0 there are the spec's decisions D2 and D3 (log 1), and
that `State.reset` has variant F and the empty image is the model's choice (log 2, log 3). -/
def Obligations.InvAtReset : Prop :=
  Inv State.reset ∧ PcEven State.reset ∧ ALow State.reset
    ∧ ∀ c image, Inv (State.initial c image) ∧ ALow (State.initial c image)
        ∧ (c.romBase.toNat % 2 = 0 → PcEven (State.initial c image))

/-- R26, R261: from a state whose `P` is even, every step leaves `P` even. -/
def Obligations.StepKeepsPcEven : Prop :=
  ∀ s t : State, PcEven s → step s = .next t → PcEven t

/-- R27, R70: from a state whose `A` is in 0x0000..0x0FFF, every step leaves it there. -/
def Obligations.StepKeepsALow : Prop :=
  ∀ s t : State, ALow s → step s = .next t → ALow t

/-- R61, R36, R37: no step changes a byte of the ROM or the configuration, from any state. -/
def Obligations.StepKeepsRom : Prop :=
  ∀ s t : State, step s = .next t → t.config = s.config ∧ ∀ i, t.mem.read .rom i = s.mem.read .rom i

/-- R29, R77: `M` influences nothing but itself: two states that differ in `M` alone step to outcomes that differ in `M`
alone. -/
def Obligations.BankFlagInfluencesNothing : Prop :=
  ∀ (s : State) (b : Bool), agreeButM (step s) (step (withM b s))

/-- R70, R258: in the default layout, with `A` where SET_A can put it, READ loads the ROM's byte, and WRITE and
CONVERT_TO_BASE_10 are fatal with nothing written. -/
def Obligations.DefaultLayoutReachesRomOnly : Prop :=
  ∀ (s : State) (fX : BitVec 4) (hX : fX.toNat < 8), s.config.romBase = 0x0000 → ALow s →
    exec (.read fX) s = .next { s with regs := s.regs.set fX.toNat (s.mem.read .rom s.regA.toNat), pc := s.pc + 2 }
    ∧ exec (.write fX) s = .next (fatalState (.readOnlyDeviceViolation s.regA) s)
    ∧ exec (.convertToBase10 fX) s = .next (fatalState (.readOnlyDeviceViolation s.regA) s)

/-- R38, R250, R252: the state after reset. RAM, the display and the lifecycle state are as DOC00 says; the values of the
registers and of the timer activity are the spec's own decisions (D1 to D6; log 1), and the configuration and the empty ROM
image are the model's (log 2, log 3). -/
def Obligations.ResetValues : Prop :=
  (∀ n : Fin 8, State.reset.regs[n.val] = 0x00)
    ∧ State.reset.pc = State.reset.config.romBase ∧ State.reset.regA = 0x0000 ∧ State.reset.regT = 0x00
    ∧ State.reset.flagM = false ∧ State.reset.timerActive = false ∧ State.reset.cycle = .idle
    ∧ State.reset.lifecycle = .stopped
    ∧ (∀ i, State.reset.mem.read .ram i = 0x00) ∧ (∀ i, State.reset.mem.read .display i = 0x20)
    ∧ initialiseMachine Config.variantF [] = .next State.reset
end

