-- ==== Sys2Proof/Laws/Decode.lean ====
section
/-! SUPPORT. The numeric value of each field of a word, and of a word put together from fields. -/

namespace Sys2Proof

theorem toNat_append_eq {m n : Nat} (x : BitVec m) (y : BitVec n) : (x ++ y).toNat = x.toNat * 2 ^ n + y.toNat := by
  rw [BitVec.toNat_append, Nat.shiftLeft_eq, Nat.mul_comm, Nat.two_pow_add_eq_or_of_lt y.isLt]

theorem opcodeOf_toNat (w : Word) : (opcodeOf w).toNat = w.toNat / 4096 := by
  have := w.isLt
  simp [opcodeOf, Nat.shiftRight_eq_div_pow]; omega

theorem fieldX_toNat (w : Word) : (fieldX w).toNat = w.toNat / 256 % 16 := by
  simp [fieldX, Nat.shiftRight_eq_div_pow]

theorem fieldY_toNat (w : Word) : (fieldY w).toNat = w.toNat / 16 % 8 := by
  simp [fieldY, Nat.shiftRight_eq_div_pow]

theorem fieldZ_toNat (w : Word) : (fieldZ w).toNat = w.toNat % 16 := by
  simp [fieldZ]

theorem fieldBB_toNat (w : Word) : (fieldBB w).toNat = w.toNat % 256 := by
  simp [fieldBB]

theorem fieldAAA_toNat (w : Word) : (fieldAAA w).toNat = w.toNat % 4096 := by
  simp [fieldAAA]

/-- The two bytes of a word give the word back (R71, R90). -/
theorem wordOf_bytes (w : Word) : wordOf (w.extractLsb' 8 8) (w.extractLsb' 0 8) = w := by
  apply BitVec.eq_of_toNat_eq
  have := w.isLt
  rw [wordOf, toNat_append_eq]
  simp [Nat.shiftRight_eq_div_pow]; omega

/-- Decoding the bytes of a word, with more bytes behind them, decodes the word. -/
theorem decode_bytesOf (w : Word) (rest : List Byte) :
    decode (bytesOf w ++ rest) =
      match decodeWord w with
      | .ok i => .ok (i, rest)
      | .error e => .error e := by
  show (match decodeWord (wordOf (w.extractLsb' 8 8) (w.extractLsb' 0 8)) with
    | .ok i => Except.ok (i, rest)
    | .error e => .error e) = _
  rw [wordOf_bytes]

/-- The numeric value of the high nibble selects the instruction (R91). -/
theorem decodeWord_at {w : Word} {o : Nat} (h : w.toNat / 4096 = o) : decodeWord w = instrOf o w := by
  rw [decodeWord, opcodeOf_toNat, h]

/-- No word has an opcode outside the sixteen (R97). -/
theorem decodeWord_ok (w : Word) : ∃ i, decodeWord w = .ok i := by
  have h : (opcodeOf w).toNat < 16 := (opcodeOf w).isLt
  unfold decodeWord instrOf
  generalize (opcodeOf w).toNat = n at h ⊢
  split <;> first | exact ⟨_, rfl⟩ | (simp only [imp_false] at *; omega)

/-- The opcode and the fields of a word put together by the pattern of format RI (R93). -/
theorem fields_RI (o fX : BitVec 4) (bb : BitVec 8) :
    (o ++ fX ++ bb : Word).toNat / 4096 = o.toNat ∧ fieldX (o ++ fX ++ bb) = fX ∧ fieldBB (o ++ fX ++ bb) = bb := by
  have := o.isLt; have := fX.isLt; have := bb.isLt
  refine ⟨?_, BitVec.eq_of_toNat_eq ?_, BitVec.eq_of_toNat_eq ?_⟩ <;>
    simp only [fieldX_toNat, fieldBB_toNat, toNat_append_eq] <;> omega

/-- The opcode and the fields of a word put together by the pattern of format RRR, `n` its ignored bit (R93). -/
theorem fields_RRR (o fX : BitVec 4) (n : BitVec 1) (fY : BitVec 3) (fZ : BitVec 4) :
    (o ++ fX ++ n ++ fY ++ fZ : Word).toNat / 4096 = o.toNat ∧ fieldX (o ++ fX ++ n ++ fY ++ fZ) = fX
      ∧ fieldY (o ++ fX ++ n ++ fY ++ fZ) = fY ∧ fieldZ (o ++ fX ++ n ++ fY ++ fZ) = fZ := by
  have := o.isLt; have := fX.isLt; have := n.isLt; have := fY.isLt; have := fZ.isLt
  refine ⟨?_, BitVec.eq_of_toNat_eq ?_, BitVec.eq_of_toNat_eq ?_, BitVec.eq_of_toNat_eq ?_⟩ <;>
    simp only [fieldX_toNat, fieldY_toNat, fieldZ_toNat, toNat_append_eq] <;> omega

/-- The opcode and the field of a word put together by the pattern of format A (R93). -/
theorem fields_A (o : BitVec 4) (aaa : BitVec 12) :
    (o ++ aaa : Word).toNat / 4096 = o.toNat ∧ fieldAAA (o ++ aaa) = aaa := by
  have := o.isLt; have := aaa.isLt
  refine ⟨?_, BitVec.eq_of_toNat_eq ?_⟩ <;> simp only [fieldAAA_toNat, toNat_append_eq] <;> omega

end Sys2Proof
end

