-- ==== Sys2Proof/Laws/Memory.lean ====
section
/-! SUPPORT. The laws of the storage: a read after a write, and the canonical form that every write keeps. -/

namespace Sys2Proof.Machine

theorem cellsGet_insert (m : List Host.Cell) (i j : Nat) (v : Byte) :
    cellsGet (cellsInsert m i v) j = if i = j then some v else cellsGet m j := by
  induction m with
  | nil => simp [cellsInsert, cellsGet]
  | cons c m ih =>
    obtain ⟨k, w⟩ := c
    simp only [cellsInsert]
    split
    · simp [cellsGet]
    · split
      · subst_vars; simp only [cellsGet]; split <;> rfl
      · simp only [cellsGet, ih]
        split
        · subst_vars; rw [if_neg ‹_›]
        · rfl

theorem cellsGet_erase (m : List Host.Cell) (i j : Nat) :
    cellsGet (cellsErase m i) j = if i = j then none else cellsGet m j := by
  induction m with
  | nil => simp [cellsErase, cellsGet]
  | cons c m ih =>
    obtain ⟨k, w⟩ := c
    simp only [cellsErase]
    split
    · subst_vars; rw [ih]; simp only [cellsGet]; split <;> rfl
    · simp only [cellsGet, ih]
      split
      · subst_vars; rw [if_neg (Ne.symm ‹_›)]
      · rfl

@[simp] theorem cells_setCells (m : Memory) (d e : Store) (l : List Host.Cell) :
    (m.setCells d l).cells e = if d = e then l else m.cells e := by
  cases d <;> cases e <;> rfl

/-- A read after a write: the byte written at the cell written, the old byte at every other cell. -/
theorem read_write (m : Memory) (d e : Store) (i j : Nat) (v : Byte) :
    (m.write d i v).read e j = if d = e ∧ i = j then v else m.read e j := by
  unfold Memory.read Memory.write
  rw [cells_setCells]
  by_cases hd : d = e
  · subst hd
    by_cases hv : v = d.unlisted
    · by_cases hi : i = j <;> simp [hv, hi, cellsGet_erase]
    · by_cases hi : i = j <;> simp [hv, hi, cellsGet_insert]
  · simp [hd]

/-- The cells of the devices not written stay. -/
theorem write_cells_other (m : Memory) (d e : Store) (h : d ≠ e) (i : Nat) (v : Byte) :
    (m.write d i v).cells e = m.cells e := by
  simp [Memory.write, h]

theorem cellsWf_mono (d : Store) (lo lo' : Nat) (h : lo' ≤ lo) (m : List Host.Cell) (hm : cellsWf d lo m = true) :
    cellsWf d lo' m = true := by
  cases m with
  | nil => rfl
  | cons c m => simp [cellsWf] at hm ⊢; exact ⟨⟨⟨by omega, hm.1.1.2⟩, hm.1.2⟩, hm.2⟩

theorem cellsWf_insert (d : Store) (i : Nat) (v : Byte) (hi : i < d.size) (hv : v ≠ d.unlisted) (m : List Host.Cell) :
    ∀ lo, lo ≤ i → cellsWf d lo m = true → cellsWf d lo (cellsInsert m i v) = true := by
  induction m with
  | nil => intro lo hlo _; simp [cellsInsert, cellsWf, hlo, hi, hv]
  | cons c m ih =>
    obtain ⟨k, w⟩ := c
    intro lo hlo hm
    simp only [cellsWf, Bool.and_eq_true, decide_eq_true_eq] at hm
    obtain ⟨⟨⟨h1, h2⟩, h3⟩, h4⟩ := hm
    simp only [cellsInsert]
    split
    · simp [cellsWf, hlo, hi, hv, h2, h3, h4]; omega
    · split
      · subst_vars; simp [cellsWf, hlo, hi, hv, h4]
      · simp only [cellsWf, Bool.and_eq_true, decide_eq_true_eq]
        exact ⟨⟨⟨h1, h2⟩, h3⟩, ih (k + 1) (by omega) h4⟩

theorem cellsWf_erase (d : Store) (i : Nat) (m : List Host.Cell) :
    ∀ lo, cellsWf d lo m = true → cellsWf d lo (cellsErase m i) = true := by
  induction m with
  | nil => intro lo _; rfl
  | cons c m ih =>
    obtain ⟨k, w⟩ := c
    intro lo hm
    simp only [cellsWf, Bool.and_eq_true, decide_eq_true_eq] at hm
    obtain ⟨⟨⟨h1, h2⟩, h3⟩, h4⟩ := hm
    simp only [cellsErase]
    split
    · exact cellsWf_mono d (k + 1) lo (by omega) _ (ih (k + 1) h4)
    · simp only [cellsWf, Bool.and_eq_true, decide_eq_true_eq]
      exact ⟨⟨⟨h1, h2⟩, h3⟩, ih (k + 1) h4⟩

/-- The canonical form says so of each device's cells. -/
theorem wf_iff (m : Memory) : m.wf = true ↔ ∀ d : Store, cellsWf d 0 (m.cells d) = true := by
  constructor
  · intro h d
    simp only [Memory.wf, Bool.and_eq_true] at h
    cases d
    · exact h.1.1
    · exact h.1.2
    · exact h.2
  · intro h
    simp only [Memory.wf, Bool.and_eq_true]
    exact ⟨⟨h .rom, h .ram⟩, h .display⟩

/-- Every write inside a device keeps the canonical form. -/
theorem wf_write (m : Memory) (d : Store) (i : Nat) (v : Byte) (hi : i < d.size) (hm : m.wf = true) :
    (m.write d i v).wf = true := by
  rw [wf_iff] at hm ⊢
  intro e
  unfold Memory.write
  rw [cells_setCells]
  split
  · subst_vars
    split
    · exact cellsWf_erase _ _ _ _ (hm _)
    · exact cellsWf_insert _ _ _ hi ‹_› _ 0 (Nat.zero_le _) (hm _)
  · exact hm e

theorem cellsGet_none_of_lt (d : Store) (j : Nat) (m : List Host.Cell) :
    ∀ lo, j < lo → cellsWf d lo m = true → cellsGet m j = none := by
  induction m with
  | nil => intro _ _ _; rfl
  | cons c m ih =>
    obtain ⟨k, w⟩ := c
    intro lo hlo hm
    simp only [cellsWf, Bool.and_eq_true, decide_eq_true_eq] at hm
    rw [cellsGet, if_neg (by omega)]
    exact ih (k + 1) (by omega) hm.2

theorem romCells_wf (image : List Byte) : ∀ i, cellsWf .rom i (romCells i image) = true := by
  induction image with
  | nil => intro i; rfl
  | cons b bs ih =>
    intro i
    simp only [romCells]
    split
    · split
      · exact cellsWf_mono _ (i + 1) i (by omega) _ (ih (i + 1))
      · rename_i h1 h2
        simp only [cellsWf, Bool.and_eq_true, decide_eq_true_eq]
        exact ⟨⟨⟨Nat.le_refl _, h1⟩, h2⟩, ih (i + 1)⟩
    · rfl

/-- The image loaded from offset `i` on gives offset `i + k` the image's byte `k`, or the padding (R60). -/
theorem romCells_get (image : List Byte) :
    ∀ i k, i + k < 4096 → (cellsGet (romCells i image) (i + k)).getD 0x00 = image.getD k 0x00 := by
  induction image with
  | nil => intro i k _; rfl
  | cons b bs ih =>
    intro i k hk
    have hlt : i < Store.size .rom := by simp only [Store.size]; omega
    simp only [romCells, if_pos hlt]
    cases k with
    | zero =>
      split
      · rename_i hb
        rw [show i + 0 = i from rfl, cellsGet_none_of_lt .rom i _ (i + 1) (by omega) (romCells_wf bs (i + 1))]
        simp [hb, Store.unlisted]
      · simp [cellsGet]
    | succ k =>
      have h := ih (i + 1) k (by omega)
      rw [show i + (k + 1) = i + 1 + k by omega]
      split
      · rw [h]; simp
      · rw [cellsGet, if_neg (by omega), h]; simp

end Sys2Proof.Machine
end

