-- ==== Sys2Proof/Laws/State.lean ====
section
/-! SUPPORT. What each named update leaves in each field of the state: one lemma per field per update, so that no later
proof unfolds a record update. -/

namespace Sys2Proof.Machine

/-! ### emit -/

@[simp] theorem emit_regs (d : Diagnostic) (s : State) : (State.emit d s).regs = s.regs := rfl
@[simp] theorem emit_pc (d : Diagnostic) (s : State) : (State.emit d s).pc = s.pc := rfl
@[simp] theorem emit_regA (d : Diagnostic) (s : State) : (State.emit d s).regA = s.regA := rfl
@[simp] theorem emit_regT (d : Diagnostic) (s : State) : (State.emit d s).regT = s.regT := rfl
@[simp] theorem emit_flagM (d : Diagnostic) (s : State) : (State.emit d s).flagM = s.flagM := rfl
@[simp] theorem emit_timerActive (d : Diagnostic) (s : State) : (State.emit d s).timerActive = s.timerActive := rfl
@[simp] theorem emit_lifecycle (d : Diagnostic) (s : State) : (State.emit d s).lifecycle = s.lifecycle := rfl
@[simp] theorem emit_cycle (d : Diagnostic) (s : State) : (State.emit d s).cycle = s.cycle := rfl
@[simp] theorem emit_mem (d : Diagnostic) (s : State) : (State.emit d s).mem = s.mem := rfl
@[simp] theorem emit_keyboard (d : Diagnostic) (s : State) : (State.emit d s).keyboard = s.keyboard := rfl
@[simp] theorem emit_diagnostics (d : Diagnostic) (s : State) : (State.emit d s).diagnostics = s.diagnostics ++ [d] := rfl
@[simp] theorem emit_config (d : Diagnostic) (s : State) : (State.emit d s).config = s.config := rfl
@[simp] theorem emit_schedule (d : Diagnostic) (s : State) : (State.emit d s).schedule = s.schedule := rfl

/-! ### setReg -/

@[simp] theorem setReg_regs (n : Fin 8) (v : Byte) (s : State) : (State.setReg n v s).regs = s.regs.set n.val v := rfl
@[simp] theorem setReg_pc (n : Fin 8) (v : Byte) (s : State) : (State.setReg n v s).pc = s.pc := rfl
@[simp] theorem setReg_regA (n : Fin 8) (v : Byte) (s : State) : (State.setReg n v s).regA = s.regA := rfl
@[simp] theorem setReg_regT (n : Fin 8) (v : Byte) (s : State) : (State.setReg n v s).regT = s.regT := rfl
@[simp] theorem setReg_flagM (n : Fin 8) (v : Byte) (s : State) : (State.setReg n v s).flagM = s.flagM := rfl
@[simp] theorem setReg_timerActive (n : Fin 8) (v : Byte) (s : State) : (State.setReg n v s).timerActive = s.timerActive := rfl
@[simp] theorem setReg_lifecycle (n : Fin 8) (v : Byte) (s : State) : (State.setReg n v s).lifecycle = s.lifecycle := rfl
@[simp] theorem setReg_cycle (n : Fin 8) (v : Byte) (s : State) : (State.setReg n v s).cycle = s.cycle := rfl
@[simp] theorem setReg_mem (n : Fin 8) (v : Byte) (s : State) : (State.setReg n v s).mem = s.mem := rfl
@[simp] theorem setReg_keyboard (n : Fin 8) (v : Byte) (s : State) : (State.setReg n v s).keyboard = s.keyboard := rfl
@[simp] theorem setReg_diagnostics (n : Fin 8) (v : Byte) (s : State) : (State.setReg n v s).diagnostics = s.diagnostics := rfl
@[simp] theorem setReg_config (n : Fin 8) (v : Byte) (s : State) : (State.setReg n v s).config = s.config := rfl
@[simp] theorem setReg_schedule (n : Fin 8) (v : Byte) (s : State) : (State.setReg n v s).schedule = s.schedule := rfl

/-! ### advance -/

@[simp] theorem advance_regs (delta : Addr) (s : State) : (State.advance delta s).regs = s.regs := rfl
@[simp] theorem advance_pc (delta : Addr) (s : State) : (State.advance delta s).pc = s.pc + delta := rfl
@[simp] theorem advance_regA (delta : Addr) (s : State) : (State.advance delta s).regA = s.regA := rfl
@[simp] theorem advance_regT (delta : Addr) (s : State) : (State.advance delta s).regT = s.regT := rfl
@[simp] theorem advance_flagM (delta : Addr) (s : State) : (State.advance delta s).flagM = s.flagM := rfl
@[simp] theorem advance_timerActive (delta : Addr) (s : State) : (State.advance delta s).timerActive = s.timerActive := rfl
@[simp] theorem advance_lifecycle (delta : Addr) (s : State) : (State.advance delta s).lifecycle = s.lifecycle := rfl
@[simp] theorem advance_cycle (delta : Addr) (s : State) : (State.advance delta s).cycle = s.cycle := rfl
@[simp] theorem advance_mem (delta : Addr) (s : State) : (State.advance delta s).mem = s.mem := rfl
@[simp] theorem advance_keyboard (delta : Addr) (s : State) : (State.advance delta s).keyboard = s.keyboard := rfl
@[simp] theorem advance_diagnostics (delta : Addr) (s : State) : (State.advance delta s).diagnostics = s.diagnostics := rfl
@[simp] theorem advance_config (delta : Addr) (s : State) : (State.advance delta s).config = s.config := rfl
@[simp] theorem advance_schedule (delta : Addr) (s : State) : (State.advance delta s).schedule = s.schedule := rfl

/-! ### blockIn -/

@[simp] theorem blockIn_regs (c : Cycle) (s : State) : (State.blockIn c s).regs = s.regs := rfl
@[simp] theorem blockIn_pc (c : Cycle) (s : State) : (State.blockIn c s).pc = s.pc := rfl
@[simp] theorem blockIn_regA (c : Cycle) (s : State) : (State.blockIn c s).regA = s.regA := rfl
@[simp] theorem blockIn_regT (c : Cycle) (s : State) : (State.blockIn c s).regT = s.regT := rfl
@[simp] theorem blockIn_flagM (c : Cycle) (s : State) : (State.blockIn c s).flagM = s.flagM := rfl
@[simp] theorem blockIn_timerActive (c : Cycle) (s : State) : (State.blockIn c s).timerActive = s.timerActive := rfl
@[simp] theorem blockIn_lifecycle (c : Cycle) (s : State) : (State.blockIn c s).lifecycle = s.lifecycle := rfl
@[simp] theorem blockIn_cycle (c : Cycle) (s : State) : (State.blockIn c s).cycle = c := rfl
@[simp] theorem blockIn_mem (c : Cycle) (s : State) : (State.blockIn c s).mem = s.mem := rfl
@[simp] theorem blockIn_keyboard (c : Cycle) (s : State) : (State.blockIn c s).keyboard = s.keyboard := rfl
@[simp] theorem blockIn_diagnostics (c : Cycle) (s : State) : (State.blockIn c s).diagnostics = s.diagnostics := rfl
@[simp] theorem blockIn_config (c : Cycle) (s : State) : (State.blockIn c s).config = s.config := rfl
@[simp] theorem blockIn_schedule (c : Cycle) (s : State) : (State.blockIn c s).schedule = s.schedule := rfl

/-! ### shutdown -/

@[simp] theorem shutdown_regs (s : State) : (State.shutdown s).regs = s.regs := rfl
@[simp] theorem shutdown_pc (s : State) : (State.shutdown s).pc = s.pc := rfl
@[simp] theorem shutdown_regA (s : State) : (State.shutdown s).regA = s.regA := rfl
@[simp] theorem shutdown_regT (s : State) : (State.shutdown s).regT = s.regT := rfl
@[simp] theorem shutdown_flagM (s : State) : (State.shutdown s).flagM = s.flagM := rfl
@[simp] theorem shutdown_timerActive (s : State) : (State.shutdown s).timerActive = false := rfl
@[simp] theorem shutdown_lifecycle (s : State) : (State.shutdown s).lifecycle = .shutDown := rfl
@[simp] theorem shutdown_cycle (s : State) : (State.shutdown s).cycle = s.cycle := rfl
@[simp] theorem shutdown_mem (s : State) : (State.shutdown s).mem = s.mem := rfl
@[simp] theorem shutdown_keyboard (s : State) : (State.shutdown s).keyboard = s.keyboard := rfl
@[simp] theorem shutdown_diagnostics (s : State) : (State.shutdown s).diagnostics = s.diagnostics := rfl
@[simp] theorem shutdown_config (s : State) : (State.shutdown s).config = s.config := rfl
@[simp] theorem shutdown_schedule (s : State) : (State.shutdown s).schedule = s.schedule := rfl

/-! ### raise -/

@[simp] theorem raise_regs (c : FatalCondition) (s : State) : (raise c s).regs = s.regs := rfl
@[simp] theorem raise_pc (c : FatalCondition) (s : State) : (raise c s).pc = s.pc := rfl
@[simp] theorem raise_regA (c : FatalCondition) (s : State) : (raise c s).regA = s.regA := rfl
@[simp] theorem raise_regT (c : FatalCondition) (s : State) : (raise c s).regT = s.regT := rfl
@[simp] theorem raise_flagM (c : FatalCondition) (s : State) : (raise c s).flagM = s.flagM := rfl
@[simp] theorem raise_timerActive (c : FatalCondition) (s : State) : (raise c s).timerActive = false := rfl
@[simp] theorem raise_lifecycle (c : FatalCondition) (s : State) : (raise c s).lifecycle = .shutDown := rfl
@[simp] theorem raise_cycle (c : FatalCondition) (s : State) : (raise c s).cycle = s.cycle := rfl
@[simp] theorem raise_mem (c : FatalCondition) (s : State) : (raise c s).mem = s.mem := rfl
@[simp] theorem raise_keyboard (c : FatalCondition) (s : State) : (raise c s).keyboard = s.keyboard := rfl
@[simp] theorem raise_diagnostics (c : FatalCondition) (s : State) : (raise c s).diagnostics = s.diagnostics ++ [.fatal c s.pc] := rfl
@[simp] theorem raise_config (c : FatalCondition) (s : State) : (raise c s).config = s.config := rfl
@[simp] theorem raise_schedule (c : FatalCondition) (s : State) : (raise c s).schedule = s.schedule := rfl

/-! ### drawCell -/

@[simp] theorem drawCell_regs (i : Nat) (v : Byte) (s : State) : (drawCell i v s).regs = s.regs := rfl
@[simp] theorem drawCell_pc (i : Nat) (v : Byte) (s : State) : (drawCell i v s).pc = s.pc := rfl
@[simp] theorem drawCell_regA (i : Nat) (v : Byte) (s : State) : (drawCell i v s).regA = s.regA := rfl
@[simp] theorem drawCell_regT (i : Nat) (v : Byte) (s : State) : (drawCell i v s).regT = s.regT := rfl
@[simp] theorem drawCell_flagM (i : Nat) (v : Byte) (s : State) : (drawCell i v s).flagM = s.flagM := rfl
@[simp] theorem drawCell_timerActive (i : Nat) (v : Byte) (s : State) : (drawCell i v s).timerActive = s.timerActive := rfl
@[simp] theorem drawCell_lifecycle (i : Nat) (v : Byte) (s : State) : (drawCell i v s).lifecycle = s.lifecycle := rfl
@[simp] theorem drawCell_cycle (i : Nat) (v : Byte) (s : State) : (drawCell i v s).cycle = s.cycle := rfl
@[simp] theorem drawCell_mem (i : Nat) (v : Byte) (s : State) : (drawCell i v s).mem = s.mem.write .display i v := rfl
@[simp] theorem drawCell_keyboard (i : Nat) (v : Byte) (s : State) : (drawCell i v s).keyboard = s.keyboard := rfl
@[simp] theorem drawCell_diagnostics (i : Nat) (v : Byte) (s : State) : (drawCell i v s).diagnostics = s.diagnostics := rfl
@[simp] theorem drawCell_config (i : Nat) (v : Byte) (s : State) : (drawCell i v s).config = s.config := rfl
@[simp] theorem drawCell_schedule (i : Nat) (v : Byte) (s : State) : (drawCell i v s).schedule = s.schedule := rfl

/-! ### setTimerValue -/

@[simp] theorem setTimerValue_regs (bb : Byte) (s : State) : (setTimerValue bb s).regs = s.regs := rfl
@[simp] theorem setTimerValue_pc (bb : Byte) (s : State) : (setTimerValue bb s).pc = s.pc := rfl
@[simp] theorem setTimerValue_regA (bb : Byte) (s : State) : (setTimerValue bb s).regA = s.regA := rfl
@[simp] theorem setTimerValue_regT (bb : Byte) (s : State) : (setTimerValue bb s).regT = bb := rfl
@[simp] theorem setTimerValue_flagM (bb : Byte) (s : State) : (setTimerValue bb s).flagM = s.flagM := rfl
@[simp] theorem setTimerValue_timerActive (bb : Byte) (s : State) : (setTimerValue bb s).timerActive = (decide (0 < bb.toNat) && decide (s.lifecycle ≠ .shutDown)) := rfl
@[simp] theorem setTimerValue_lifecycle (bb : Byte) (s : State) : (setTimerValue bb s).lifecycle = s.lifecycle := rfl
@[simp] theorem setTimerValue_cycle (bb : Byte) (s : State) : (setTimerValue bb s).cycle = s.cycle := rfl
@[simp] theorem setTimerValue_mem (bb : Byte) (s : State) : (setTimerValue bb s).mem = s.mem := rfl
@[simp] theorem setTimerValue_keyboard (bb : Byte) (s : State) : (setTimerValue bb s).keyboard = s.keyboard := rfl
@[simp] theorem setTimerValue_diagnostics (bb : Byte) (s : State) : (setTimerValue bb s).diagnostics = s.diagnostics := rfl
@[simp] theorem setTimerValue_config (bb : Byte) (s : State) : (setTimerValue bb s).config = s.config := rfl
@[simp] theorem setTimerValue_schedule (bb : Byte) (s : State) : (setTimerValue bb s).schedule = s.schedule := rfl

/-! ### toggleM -/

@[simp] theorem toggleM_regs (s : State) : (State.toggleM s).regs = s.regs := rfl
@[simp] theorem toggleM_pc (s : State) : (State.toggleM s).pc = s.pc := rfl
@[simp] theorem toggleM_regA (s : State) : (State.toggleM s).regA = s.regA := rfl
@[simp] theorem toggleM_regT (s : State) : (State.toggleM s).regT = s.regT := rfl
@[simp] theorem toggleM_flagM (s : State) : (State.toggleM s).flagM = !s.flagM := rfl
@[simp] theorem toggleM_timerActive (s : State) : (State.toggleM s).timerActive = s.timerActive := rfl
@[simp] theorem toggleM_lifecycle (s : State) : (State.toggleM s).lifecycle = s.lifecycle := rfl
@[simp] theorem toggleM_cycle (s : State) : (State.toggleM s).cycle = s.cycle := rfl
@[simp] theorem toggleM_mem (s : State) : (State.toggleM s).mem = s.mem := rfl
@[simp] theorem toggleM_keyboard (s : State) : (State.toggleM s).keyboard = s.keyboard := rfl
@[simp] theorem toggleM_diagnostics (s : State) : (State.toggleM s).diagnostics = s.diagnostics := rfl
@[simp] theorem toggleM_config (s : State) : (State.toggleM s).config = s.config := rfl
@[simp] theorem toggleM_schedule (s : State) : (State.toggleM s).schedule = s.schedule := rfl

/-! ### supplyToken -/

@[simp] theorem supplyToken_regs (t : Token) (s : State) : (supplyToken t s).regs = s.regs := rfl
@[simp] theorem supplyToken_pc (t : Token) (s : State) : (supplyToken t s).pc = s.pc := rfl
@[simp] theorem supplyToken_regA (t : Token) (s : State) : (supplyToken t s).regA = s.regA := rfl
@[simp] theorem supplyToken_regT (t : Token) (s : State) : (supplyToken t s).regT = s.regT := rfl
@[simp] theorem supplyToken_flagM (t : Token) (s : State) : (supplyToken t s).flagM = s.flagM := rfl
@[simp] theorem supplyToken_timerActive (t : Token) (s : State) : (supplyToken t s).timerActive = s.timerActive := rfl
@[simp] theorem supplyToken_lifecycle (t : Token) (s : State) : (supplyToken t s).lifecycle = s.lifecycle := rfl
@[simp] theorem supplyToken_cycle (t : Token) (s : State) : (supplyToken t s).cycle = s.cycle := rfl
@[simp] theorem supplyToken_mem (t : Token) (s : State) : (supplyToken t s).mem = s.mem := rfl
@[simp] theorem supplyToken_keyboard (t : Token) (s : State) : (supplyToken t s).keyboard = s.keyboard ++ [t] := rfl
@[simp] theorem supplyToken_diagnostics (t : Token) (s : State) : (supplyToken t s).diagnostics = s.diagnostics := rfl
@[simp] theorem supplyToken_config (t : Token) (s : State) : (supplyToken t s).config = s.config := rfl
@[simp] theorem supplyToken_schedule (t : Token) (s : State) : (supplyToken t s).schedule = s.schedule := rfl

/-! ### tick: it touches `T` and `TimerActive` alone (R216) -/

@[simp] theorem tick_regs (s : State) : (tick s).regs = s.regs := by
  unfold tick; split <;> rfl
@[simp] theorem tick_pc (s : State) : (tick s).pc = s.pc := by
  unfold tick; split <;> rfl
@[simp] theorem tick_regA (s : State) : (tick s).regA = s.regA := by
  unfold tick; split <;> rfl
@[simp] theorem tick_flagM (s : State) : (tick s).flagM = s.flagM := by
  unfold tick; split <;> rfl
@[simp] theorem tick_lifecycle (s : State) : (tick s).lifecycle = s.lifecycle := by
  unfold tick; split <;> rfl
@[simp] theorem tick_cycle (s : State) : (tick s).cycle = s.cycle := by
  unfold tick; split <;> rfl
@[simp] theorem tick_mem (s : State) : (tick s).mem = s.mem := by
  unfold tick; split <;> rfl
@[simp] theorem tick_keyboard (s : State) : (tick s).keyboard = s.keyboard := by
  unfold tick; split <;> rfl
@[simp] theorem tick_diagnostics (s : State) : (tick s).diagnostics = s.diagnostics := by
  unfold tick; split <;> rfl
@[simp] theorem tick_config (s : State) : (tick s).config = s.config := by
  unfold tick; split <;> rfl
@[simp] theorem tick_schedule (s : State) : (tick s).schedule = s.schedule := by
  unfold tick; split <;> rfl

/-- A tick without the activity changes nothing (R216). -/
theorem tick_of_idle {s : State} (h : s.timerActive = false) : tick s = s := by simp [tick, h]

/-- A tick of the activity: `T` goes down by one and stops at 0, where the activity ends (R216). -/
theorem tick_of_active {s : State} (h : s.timerActive = true) :
    tick s = { s with regT := BitVec.ofNat 8 (s.regT.toNat - 1), timerActive := decide (1 < s.regT.toNat) } := by
  have ht := s.regT.isLt
  simp only [tick, h, if_true]
  congr 1
  apply BitVec.eq_of_toNat_eq
  split
  · rw [BitVec.toNat_sub, BitVec.toNat_ofNat, show (1 : BitVec 8).toNat = 1 from rfl]; omega
  · rw [BitVec.toNat_ofNat]; omega

/-! ### Registers -/

@[simp] theorem setReg_same (n : Fin 8) (v : Byte) (s : State) : (State.setReg n v s).reg n = v := by
  simp [State.reg, State.setReg]

theorem setReg_other (n k : Fin 8) (h : k ≠ n) (v : Byte) (s : State) : (State.setReg n v s).reg k = s.reg k := by
  have : n.val ≠ k.val := fun e => h (Fin.ext e.symm)
  simp [State.reg, State.setReg, this]

end Sys2Proof.Machine
end

