-- ==== Sys2Proof/Laws/Router.lean ====
section
/-! SUPPORT. What the router, the two bus accesses and a sequence of writes can do. -/

namespace Sys2Proof.Machine

open Sys2Proof.Safety

/-- The first address of a storing device's range. -/
def storeBase (c : Config) : Store → Nat
  | .rom => deviceBase c .rom
  | .ram => deviceBase c .ram
  | .display => deviceBase c .display

/-- A device owns the addresses `base` to `base + size - 1` (R52). -/
theorem deviceOwns_iff (c : Config) (a : Addr) (d : Device) :
    deviceOwns c a d = true ↔ deviceBase c d ≤ a.toNat ∧ a.toNat < deviceBase c d + deviceSize d := by
  simp [deviceOwns]

theorem deviceOwns_rom (c : Config) (a : Addr) : deviceOwns c a .rom = true ↔
    c.romBase.toNat ≤ a.toNat ∧ a.toNat < c.romBase.toNat + 4096 := deviceOwns_iff c a .rom

theorem deviceOwns_ram (c : Config) (a : Addr) : deviceOwns c a .ram = true ↔
    c.romBase.toNat + 4096 ≤ a.toNat ∧ a.toNat < c.romBase.toNat + 4096 + 4096 := deviceOwns_iff c a .ram

theorem deviceOwns_keyboard (c : Config) (a : Addr) : deviceOwns c a .keyboard = true ↔
    c.keyboardBase.toNat ≤ a.toNat ∧ a.toNat < c.keyboardBase.toNat + 1 := deviceOwns_iff c a .keyboard

theorem deviceOwns_display (c : Config) (a : Addr) : deviceOwns c a .display = true ↔
    c.displayBase.toNat ≤ a.toNat ∧ a.toNat < c.displayBase.toNat + 64 := deviceOwns_iff c a .display

/-- What a well-formed configuration says of the three bases, as numbers (R69). -/
theorem configWf_bounds {c : Config} (h : configWf c = true) :
    c.romBase.toNat + 8192 ≤ 65536 ∧ c.displayBase.toNat + 64 ≤ 65536
      ∧ (c.keyboardBase.toNat < c.romBase.toNat ∨ c.romBase.toNat + 8192 ≤ c.keyboardBase.toNat)
      ∧ (c.displayBase.toNat + 64 ≤ c.romBase.toNat ∨ c.romBase.toNat + 8192 ≤ c.displayBase.toNat)
      ∧ (c.keyboardBase.toNat < c.displayBase.toNat ∨ c.displayBase.toNat + 64 ≤ c.keyboardBase.toNat) := by
  simp only [configWf, disjointRanges, deviceOrder, List.all_cons, List.all_nil, Bool.and_eq_true, Bool.or_eq_true,
    decide_eq_true_eq] at h
  simp only [deviceSize, deviceBase] at h
  omega

/-- The dispatch written out as a first match in the order of R53. -/
theorem route_eq (c : Config) (a : Addr) :
    route c a =
      if deviceOwns c a .rom then .cell .rom (a.toNat - deviceBase c .rom)
      else if deviceOwns c a .ram then .cell .ram (a.toNat - deviceBase c .ram)
      else if deviceOwns c a .keyboard then .keyboard
      else if deviceOwns c a .display then .cell .display (a.toNat - deviceBase c .display)
      else .unmapped := by
  unfold route deviceAt deviceOrder
  cases h1 : deviceOwns c a .rom <;> cases h2 : deviceOwns c a .ram <;> cases h3 : deviceOwns c a .keyboard <;>
    cases h4 : deviceOwns c a .display <;> simp [List.find?, h1, h2, h3, h4]

/-- A cell the router answers lies inside its device, at `address - base`. -/
theorem route_cell {c : Config} {a : Addr} {d : Store} {i : Nat} (h : route c a = .cell d i) :
    i < d.size ∧ a.toNat = storeBase c d + i := by
  have owns := fun e => (deviceOwns_iff c a e).mp
  rw [route_eq] at h
  split at h
  · cases h; have := owns _ ‹_›; simp only [deviceSize] at this; simp only [Store.size, storeBase]; omega
  · split at h
    · cases h; have := owns _ ‹_›; simp only [deviceSize] at this; simp only [Store.size, storeBase]; omega
    · split at h
      · cases h
      · split at h
        · cases h; have := owns _ ‹_›; simp only [deviceSize] at this; simp only [Store.size, storeBase]; omega
        · cases h

/-- Two addresses that lead to one cell are one address. -/
theorem route_inj {c : Config} {a b : Addr} {d : Store} {i : Nat} (ha : route c a = .cell d i)
    (hb : route c b = .cell d i) : a = b :=
  BitVec.eq_of_toNat_eq (by rw [(route_cell ha).2, (route_cell hb).2])

/-- All that MemRead can do (R58). -/
theorem busRead_cases (a : Addr) (s : State) :
    (∃ d i, route s.config a = .cell d i ∧ busRead a s = some (s.mem.read d i, s))
      ∨ (route s.config a = .keyboard ∧ s.keyboard = [] ∧ busRead a s = none)
      ∨ (∃ t ts, route s.config a = .keyboard ∧ s.keyboard = t :: ts
          ∧ busRead a s = some (t.byte, { s with keyboard := ts }))
      ∨ (route s.config a = .unmapped ∧ busRead a s = some (0xFF, s.emit (.unmappedAccess .read a))) := by
  cases h : route s.config a with
  | cell d i => exact .inl ⟨d, i, rfl, by simp [busRead, h]⟩
  | keyboard =>
    cases hk : s.keyboard with
    | nil => exact .inr (.inl ⟨rfl, rfl, by simp [busRead, h, keyboardRead, hk]⟩)
    | cons t ts => exact .inr (.inr (.inl ⟨t, ts, rfl, rfl, by simp [busRead, h, keyboardRead, hk]⟩))
  | unmapped => exact .inr (.inr (.inr ⟨rfl, by simp [busRead, h]⟩))

/-- All that a keyboard read that returns can do (R63). -/
theorem keyboardRead_some {s s' : State} {v : Byte} (h : keyboardRead s = some (v, s')) :
    ∃ t ts, s.keyboard = t :: ts ∧ v = t.byte ∧ s' = { s with keyboard := ts } := by
  unfold keyboardRead at h
  cases hk : s.keyboard with
  | nil => rw [hk] at h; cases h
  | cons t ts => rw [hk] at h; cases h; exact ⟨t, ts, rfl, rfl, rfl⟩

/-- A bus read that returns changes at most the keyboard input and the diagnostics. -/
theorem busRead_some {a : Addr} {s s' : State} {v : Byte} (h : busRead a s = some (v, s')) :
    ∃ ts ds, s' = { s with keyboard := ts, diagnostics := ds } := by
  rcases busRead_cases a s with ⟨d, i, _, e⟩ | ⟨_, _, e⟩ | ⟨t, ts, _, _, e⟩ | ⟨_, e⟩ <;> rw [e] at h <;> cases h
  · exact ⟨s.keyboard, s.diagnostics, rfl⟩
  · exact ⟨ts, s.diagnostics, rfl⟩
  · exact ⟨s.keyboard, _, rfl⟩

/-- All that MemWrite can do (R59): refused, or the state `afterWrite` gives. -/
theorem busWrite_eq (a : Addr) (v : Byte) (s : State) :
    busWrite a v s =
      if writeRefused s.config a then .error (.readOnlyDeviceViolation a) else .ok (afterWrite a v s) := by
  unfold busWrite writeRefused afterWrite
  cases route s.config a with
  | cell d i => cases d <;> rfl
  | keyboard => rfl
  | unmapped => rfl

@[simp] theorem afterWrite_config (a : Addr) (v : Byte) (s : State) : (afterWrite a v s).config = s.config := by
  unfold afterWrite; split <;> rfl

/-- A write that is not refused changes at most the storage, and there one cell that is no cell of the ROM, or the
diagnostics. -/
theorem afterWrite_cases (a : Addr) (v : Byte) (s : State) (h : writeRefused s.config a = false) :
    (∃ d i, d ≠ .rom ∧ i < d.size ∧ route s.config a = .cell d i ∧ afterWrite a v s = { s with mem := s.mem.write d i v })
      ∨ (route s.config a = .unmapped ∧ afterWrite a v s = s.emit (.unmappedAccess .write a)) := by
  unfold writeRefused at h
  unfold afterWrite
  cases hr : route s.config a with
  | cell d i =>
    refine .inl ⟨d, i, ?_, (route_cell hr).1, rfl, rfl⟩
    rintro rfl; simp [hr] at h
  | keyboard => simp [hr] at h
  | unmapped => exact .inr ⟨rfl, rfl⟩

@[simp] theorem writeThenAdvance_nil (s : State) : writeThenAdvance [] s = .next (s.advance 2) := rfl

/-- One write of a sequence: refused, the instruction ends; otherwise the rest goes on (R73, R180). -/
theorem writeThenAdvance_cons (a : Addr) (v : Byte) (ws : List (Addr × Byte)) (s : State) :
    writeThenAdvance ((a, v) :: ws) s =
      if writeRefused s.config a then .next (raise (.readOnlyDeviceViolation a) s)
      else writeThenAdvance ws (afterWrite a v s) := by
  rw [writeThenAdvance, busWrite_eq]
  cases writeRefused s.config a <;> rfl

theorem raise_eq_fatalState (c : FatalCondition) (s : State) : raise c s = fatalState c s := rfl

end Sys2Proof.Machine
end

