-- ==== Sys2Proof/Laws/Exec.lean ====
section
/-! SUPPORT. What running one instruction can do, said once for all sixteen: it always answers a next state, and that state
stands in the relation `ExecFrame` to the one before. -/

namespace Sys2Proof.Machine

open Sys2Proof.Safety

/-- The register-number check passes a field below 8 (R98). -/
theorem withReg_ok {f : BitVec 4} (h : f.toNat < 8) (field : RegField) (s : State)
    (k : Fin 8 → Host.Outcome State Fault Refusal) : withReg field f s k = k ⟨f.toNat, h⟩ := by
  simp [withReg, regOfField, h]

/-- The register-number check refuses a field of 8 or more (R98, R206). -/
theorem withReg_bad {f : BitVec 4} (h : 8 ≤ f.toNat) (field : RegField) (s : State)
    (k : Fin 8 → Host.Outcome State Fault Refusal) :
    withReg field f s k = .next (fatalState (.invalidRegisterIndex field f) s) := by
  simp [withReg, regOfField, Nat.not_lt.mpr h, raise_eq_fatalState]

/-- A property that every way through the check has. -/
theorem withReg_next {P : State → Prop} {field : RegField} {f : BitVec 4} {s : State}
    {k : Fin 8 → Host.Outcome State Fault Refusal} (hbad : ∀ c, P (fatalState c s))
    (hk : ∀ h : f.toNat < 8, ∃ t, k ⟨f.toNat, h⟩ = .next t ∧ P t) : ∃ t, withReg field f s k = .next t ∧ P t := by
  by_cases h : f.toNat < 8
  · rw [withReg_ok h]; exact hk h
  · rw [withReg_bad (Nat.le_of_not_lt h)]; exact ⟨_, rfl, hbad _⟩

/-- How `T`, `TimerActive` and the lifecycle state can change under one instruction: not at all, by a fatal condition, or
by SET_T. -/
def TimerFrame (i : Instr) (s t : State) : Prop :=
  (t.regT = s.regT ∧ t.timerActive = s.timerActive ∧ t.lifecycle = s.lifecycle)
    ∨ (t.regT = s.regT ∧ t.timerActive = false ∧ t.lifecycle = .shutDown)
    ∨ (∃ bb, i = .setT bb ∧ t.regT = bb ∧ t.lifecycle = s.lifecycle
        ∧ t.timerActive = (decide (0 < bb.toNat) && decide (s.lifecycle ≠ .shutDown)))

/-- What every instruction keeps, and the ways in which each part of the state it may change can change. -/
structure ExecFrame (i : Instr) (s t : State) : Prop where
  config : t.config = s.config
  schedule : t.schedule = s.schedule
  rom : t.mem.rom = s.mem.rom
  memWf : s.mem.wf = true → t.mem.wf = true
  pc : t.pc = s.pc ∨ t.pc = s.pc + 2 ∨ t.pc = s.pc + 4 ∨ t.pc.toNat % 2 = 0
  regA : t.regA = s.regA ∨ t.regA.toNat ≤ 0x0FFF
  timer : TimerFrame i s t
  cycle : t.cycle = s.cycle ∨ (cycleOk t.cycle = true ∧ t.lifecycle = s.lifecycle)

theorem fatalState_frame (i : Instr) (c : FatalCondition) (s : State) : ExecFrame i s (fatalState c s) where
  config := rfl
  schedule := rfl
  rom := rfl
  memWf := id
  pc := .inl rfl
  regA := .inl rfl
  timer := .inr (.inl ⟨rfl, rfl, rfl⟩)
  cycle := .inl rfl

/-- A state that differs in registers, keyboard input, diagnostics and `M` only, with `P` advanced by 2 or 4. -/
theorem plain_frame (i : Instr) {s t : State} (h1 : t.config = s.config) (h2 : t.schedule = s.schedule)
    (h3 : t.mem = s.mem) (h4 : t.pc = s.pc + 2 ∨ t.pc = s.pc + 4) (h5 : t.regA = s.regA) (h6 : t.regT = s.regT)
    (h7 : t.timerActive = s.timerActive) (h8 : t.lifecycle = s.lifecycle) (h9 : t.cycle = s.cycle) : ExecFrame i s t where
  config := h1
  schedule := h2
  rom := by rw [h3]
  memWf := by rw [h3]; exact id
  pc := by rcases h4 with h | h <;> simp [h]
  regA := .inl h5
  timer := .inl ⟨h6, h7, h8⟩
  cycle := .inl h9

/-- The storage parts of the frame compose over the writes of one instruction. -/
theorem writes_frame (i : Instr) (ws : List (Addr × Byte)) :
    ∀ s, ∃ t, writeThenAdvance ws s = .next t ∧ ExecFrame i s t := by
  induction ws with
  | nil => intro s; exact ⟨_, rfl, plain_frame i rfl rfl rfl (.inl rfl) rfl rfl rfl rfl rfl⟩
  | cons w ws ih =>
    obtain ⟨a, v⟩ := w
    intro s
    rw [writeThenAdvance_cons]
    cases hw : writeRefused s.config a with
    | true => exact ⟨_, rfl, fatalState_frame i _ s⟩
    | false =>
      obtain ⟨t, ht, hf⟩ := ih (afterWrite a v s)
      refine ⟨t, ht, ?_⟩
      rcases afterWrite_cases a v s hw with ⟨d, j, hd, hj, _, e⟩ | ⟨_, e⟩ <;> rw [e] at hf
      · exact { config := hf.config, schedule := hf.schedule, pc := hf.pc, regA := hf.regA, timer := hf.timer,
                cycle := hf.cycle, memWf := fun h => hf.memWf (wf_write _ d j v hj h),
                rom := hf.rom.trans (write_cells_other s.mem d .rom hd j v) }
      · exact { config := hf.config, schedule := hf.schedule, pc := hf.pc, regA := hf.regA, timer := hf.timer,
                cycle := hf.cycle, memWf := hf.memWf, rom := hf.rom }

/-- A cycle that blocks in its handler's keyboard read changes nothing but `CycleInProgress` (R127). -/
theorem block_frame (i : Instr) (s : State) (c : Cycle) (h : cycleOk c = true) : ExecFrame i s (s.blockIn c) where
  config := rfl
  schedule := rfl
  rom := rfl
  memWf := id
  pc := .inl rfl
  regA := .inl rfl
  timer := .inl ⟨rfl, rfl, rfl⟩
  cycle := .inr ⟨h, rfl⟩

theorem zextAddress_toNat (aaa : BitVec 12) : (zextAddress aaa).toNat = aaa.toNat := by
  have := aaa.isLt
  simp only [zextAddress, BitVec.toNat_setWidth]; omega

/-- `aaa` is odd exactly if its bit 0 is set (R160). -/
theorem aaa_odd_iff (aaa : BitVec 12) : aaa.getLsbD 0 = true ↔ aaa.toNat % 2 = 1 := by
  simp [BitVec.getLsbD, Nat.testBit_zero]

/-- Every instruction, on every state, answers a next state that stands in `ExecFrame` to it. -/
theorem exec_frame (i : Instr) (s : State) : ∃ t, exec i s = .next t ∧ ExecFrame i s t := by
  have bad : ∀ c, ExecFrame i s (fatalState c s) := fun c => fatalState_frame i c s
  cases i with
  | store fX bb => exact withReg_next bad fun _ => ⟨_, rfl, plain_frame _ rfl rfl rfl (.inl rfl) rfl rfl rfl rfl rfl⟩
  | add fX fY fZ | sub fX fY fZ =>
    exact withReg_next bad fun _ => withReg_next bad fun _ =>
      ⟨_, rfl, plain_frame _ rfl rfl rfl (.inl rfl) rfl rfl rfl rfl rfl⟩
  | read fX =>
    refine withReg_next bad fun h => ?_
    rcases busRead_cases s.regA s with ⟨_, _, _, e⟩ | ⟨_, _, e⟩ | ⟨_, _, _, _, e⟩ | ⟨_, e⟩ <;> rw [e]
    · exact ⟨_, rfl, plain_frame _ rfl rfl rfl (.inl rfl) rfl rfl rfl rfl rfl⟩
    · exact ⟨_, rfl, block_frame _ s _ (by simpa [cycleOk] using h)⟩
    · exact ⟨_, rfl, plain_frame _ rfl rfl rfl (.inl rfl) rfl rfl rfl rfl rfl⟩
    · exact ⟨_, rfl, plain_frame _ rfl rfl rfl (.inl rfl) rfl rfl rfl rfl rfl⟩
  | write fX | convertToBase10 fX => exact withReg_next bad fun _ => writes_frame _ _ s
  | jump aaa =>
    simp only [exec, execJump]
    split
    · exact ⟨_, rfl, bad _⟩
    · rename_i h
      refine ⟨_, rfl, rfl, rfl, rfl, id, .inr (.inr (.inr ?_)), .inl rfl, .inl ⟨rfl, rfl, rfl⟩, .inl rfl⟩
      rw [aaa_odd_iff] at h
      show (zextAddress aaa).toNat % 2 = 0
      rw [zextAddress_toNat]; omega
  | readKeyboard fX =>
    refine withReg_next bad fun h => ?_
    cases hk : keyboardRead s with
    | none => exact ⟨_, rfl, block_frame _ s _ (by simpa [cycleOk] using h)⟩
    | some p =>
      obtain ⟨t, ts, _, _, e⟩ := keyboardRead_some hk
      simp only [e]
      exact ⟨_, rfl, plain_frame _ rfl rfl rfl (.inl rfl) rfl rfl rfl rfl rfl⟩
  | switchMemory => exact ⟨_, rfl, plain_frame _ rfl rfl rfl (.inl rfl) rfl rfl rfl rfl rfl⟩
  | skipEqual fX fY | skipNotEqual fX fY =>
    refine withReg_next bad fun _ => ⟨_, rfl, plain_frame _ rfl rfl rfl ?_ rfl rfl rfl rfl rfl⟩
    simp only [advance_pc, skipDelta]; split <;> simp
  | setA aaa =>
    refine ⟨_, rfl, rfl, rfl, rfl, id, .inr (.inl rfl), .inr ?_, .inl ⟨rfl, rfl, rfl⟩, .inl rfl⟩
    show (zextAddress aaa).toNat ≤ 0x0FFF
    rw [zextAddress_toNat]; have := aaa.isLt; omega
  | setT bb => exact ⟨_, rfl, rfl, rfl, rfl, id, .inr (.inl rfl), .inl rfl, .inr (.inr ⟨bb, rfl, rfl, rfl, rfl⟩), .inl rfl⟩
  | readT fX => exact withReg_next bad fun _ => ⟨_, rfl, plain_frame _ rfl rfl rfl (.inl rfl) rfl rfl rfl rfl rfl⟩
  | convertByteToAscii fX fY =>
    refine withReg_next bad fun _ => ?_
    split
    · exact ⟨_, rfl, bad _⟩
    · exact ⟨_, rfl, plain_frame _ rfl rfl rfl (.inl rfl) rfl rfl rfl rfl rfl⟩
  | draw fX fY fZ =>
    refine withReg_next bad fun _ => withReg_next bad fun _ => ?_
    split
    · exact ⟨_, rfl, bad _⟩
    · split
      · exact ⟨_, rfl, bad _⟩
      · split
        · exact ⟨_, rfl, bad _⟩
        · rename_i h1 h2 h3
          refine ⟨_, rfl, rfl, rfl, write_cells_other s.mem .display .rom (by decide) _ _,
            fun h => wf_write _ _ _ _ ?_ h, .inr (.inl rfl), .inl rfl, .inl ⟨rfl, rfl, rfl⟩, .inl rfl⟩
          simp only [cellOffset, Store.size]; omega

end Sys2Proof.Machine
end

