-- ==== Sys2Proof/Laws/Keyboard.lean ====
section
/-! SUPPORT. What the parse of a token's text does with digits, and with a text that no reading takes for hexadecimal. -/

namespace Sys2Proof.Machine

open Sys2Proof.Safety

@[simp] theorem hexDigit_hexChar : ∀ v : Fin 16, hexDigit (hexChar v) = some v.val := by decide

@[simp] theorem isAlien_hexChar : ∀ v : Fin 16, isAlien (hexChar v) = false := by decide

@[simp] theorem isBlank_hexChar : ∀ v : Fin 16, isBlank (hexChar v) = false := by decide

@[simp] theorem isLowerHex_hexChar : ∀ v : Fin 16, isLowerHex (hexChar v) = false := by decide

/-- The number that a string of capital digits writes. -/
theorem hexValue_map_hexChar (vs : List (Fin 16)) (acc : Nat) :
    hexValue acc (vs.map hexChar) = vs.foldl (fun value v => value * 16 + v.val) acc := by
  induction vs generalizing acc with
  | nil => rfl
  | cons v vs ih => simp [hexValue, ih]

/-- A string of one to `most` capital digits gives its value. -/
theorem digitsByte_map_hexChar {most : Nat} {vs : List (Fin 16)} (hne : vs ≠ []) (hlen : vs.length ≤ most) :
    digitsByte most (vs.map hexChar) = some (BitVec.ofNat 8 (vs.foldl (fun value v => value * 16 + v.val) 0)) := by
  simp [digitsByte, List.any_map, Function.comp_def, hexValue_map_hexChar, hne, Nat.not_lt.mpr hlen]

/-- A string with a character that no reading takes for a digit or for white space gives 0x00 (R64). -/
theorem digitsByte_of_alien {cs : List Char} (h : cs.any isAlien = true) (most : Nat) :
    digitsByte most cs = some 0x00 := by
  simp only [digitsByte, h, if_true]

/-- Such a character is not among the leading white space. -/
theorem any_isAlien_dropWhile {cs : List Char} (h : cs.any isAlien = true) :
    (cs.dropWhile isBlank).any isAlien = true := by
  induction cs with
  | nil => exact h
  | cons c cs ih =>
    by_cases hb : isBlank c = true
    · rw [List.dropWhile_cons_of_pos hb]
      rw [List.any_cons, show isAlien c = false by simp [isAlien, hb], Bool.false_or] at h
      exact ih h
    · rwa [List.dropWhile_cons_of_neg hb]

end Sys2Proof.Machine
end

