-- ==== Sys2Proof/Laws/PerInstr.lean ====
section
/-! SUPPORT. The statements made per instruction: the encoder puts each instruction's opcode in `word[15:12]`
(spec/30_encoding.md R91, R95). -/

namespace Sys2Proof.Laws.Encoding

/-- The high nibble of the encoded word is the instruction's opcode (R91). -/
def Statement (i : Instr) : Prop := opcodeOf (encodeWord i) = i.opcode

theorem opcode_of_value {w : Word} {o : BitVec 4} (h : w.toNat / 4096 = o.toNat) : opcodeOf w = o :=
  BitVec.eq_of_toNat_eq (by rw [opcodeOf_toNat, h])

theorem store (fX : BitVec 4) (bb : BitVec 8) : Statement (.store fX bb) := by
  have := fX.isLt
  have := bb.isLt
  apply opcode_of_value
  simp only [encodeWord, toNat_append_eq, Instr.opcode, BitVec.ofNat_eq_ofNat, BitVec.toNat_ofNat]
  omega

theorem add (fX : BitVec 4) (fY : BitVec 3) (fZ : BitVec 4) : Statement (.add fX fY fZ) := by
  have := fX.isLt
  have := fY.isLt
  have := fZ.isLt
  apply opcode_of_value
  simp only [encodeWord, toNat_append_eq, Instr.opcode, BitVec.ofNat_eq_ofNat, BitVec.toNat_ofNat]
  omega

theorem sub (fX : BitVec 4) (fY : BitVec 3) (fZ : BitVec 4) : Statement (.sub fX fY fZ) := by
  have := fX.isLt
  have := fY.isLt
  have := fZ.isLt
  apply opcode_of_value
  simp only [encodeWord, toNat_append_eq, Instr.opcode, BitVec.ofNat_eq_ofNat, BitVec.toNat_ofNat]
  omega

theorem read (fX : BitVec 4) : Statement (.read fX) := by
  have := fX.isLt
  apply opcode_of_value
  simp only [encodeWord, toNat_append_eq, Instr.opcode, BitVec.ofNat_eq_ofNat, BitVec.toNat_ofNat]
  omega

theorem write (fX : BitVec 4) : Statement (.write fX) := by
  have := fX.isLt
  apply opcode_of_value
  simp only [encodeWord, toNat_append_eq, Instr.opcode, BitVec.ofNat_eq_ofNat, BitVec.toNat_ofNat]
  omega

theorem jump (aaa : BitVec 12) : Statement (.jump aaa) := by
  have := aaa.isLt
  apply opcode_of_value
  simp only [encodeWord, toNat_append_eq, Instr.opcode, BitVec.ofNat_eq_ofNat, BitVec.toNat_ofNat]
  omega

theorem readKeyboard (fX : BitVec 4) : Statement (.readKeyboard fX) := by
  have := fX.isLt
  apply opcode_of_value
  simp only [encodeWord, toNat_append_eq, Instr.opcode, BitVec.ofNat_eq_ofNat, BitVec.toNat_ofNat]
  omega

theorem switchMemory : Statement .switchMemory := by
  unfold Statement; decide

theorem skipEqual (fX : BitVec 4) (fY : BitVec 3) : Statement (.skipEqual fX fY) := by
  have := fX.isLt
  have := fY.isLt
  apply opcode_of_value
  simp only [encodeWord, toNat_append_eq, Instr.opcode, BitVec.ofNat_eq_ofNat, BitVec.toNat_ofNat]
  omega

theorem skipNotEqual (fX : BitVec 4) (fY : BitVec 3) : Statement (.skipNotEqual fX fY) := by
  have := fX.isLt
  have := fY.isLt
  apply opcode_of_value
  simp only [encodeWord, toNat_append_eq, Instr.opcode, BitVec.ofNat_eq_ofNat, BitVec.toNat_ofNat]
  omega

theorem setA (aaa : BitVec 12) : Statement (.setA aaa) := by
  have := aaa.isLt
  apply opcode_of_value
  simp only [encodeWord, toNat_append_eq, Instr.opcode, BitVec.ofNat_eq_ofNat, BitVec.toNat_ofNat]
  omega

theorem setT (bb : BitVec 8) : Statement (.setT bb) := by
  have := bb.isLt
  apply opcode_of_value
  simp only [encodeWord, toNat_append_eq, Instr.opcode, BitVec.ofNat_eq_ofNat, BitVec.toNat_ofNat]
  omega

theorem readT (fX : BitVec 4) : Statement (.readT fX) := by
  have := fX.isLt
  apply opcode_of_value
  simp only [encodeWord, toNat_append_eq, Instr.opcode, BitVec.ofNat_eq_ofNat, BitVec.toNat_ofNat]
  omega

theorem convertToBase10 (fX : BitVec 4) : Statement (.convertToBase10 fX) := by
  have := fX.isLt
  apply opcode_of_value
  simp only [encodeWord, toNat_append_eq, Instr.opcode, BitVec.ofNat_eq_ofNat, BitVec.toNat_ofNat]
  omega

theorem convertByteToAscii (fX : BitVec 4) (fY : BitVec 3) : Statement (.convertByteToAscii fX fY) := by
  have := fX.isLt
  have := fY.isLt
  apply opcode_of_value
  simp only [encodeWord, toNat_append_eq, Instr.opcode, BitVec.ofNat_eq_ofNat, BitVec.toNat_ofNat]
  omega

theorem draw (fX : BitVec 4) (fY : BitVec 3) (fZ : BitVec 4) : Statement (.draw fX fY fZ) := by
  have := fX.isLt
  have := fY.isLt
  have := fZ.isLt
  apply opcode_of_value
  simp only [encodeWord, toNat_append_eq, Instr.opcode, BitVec.ofNat_eq_ofNat, BitVec.toNat_ofNat]
  omega

end Sys2Proof.Laws.Encoding
end

