-- ==== Sys2Proof/Laws/Step.lean ====
section
/-! SUPPORT. What one step can do: one inversion lemma for the CPU's turn and one for the whole step. -/

namespace Sys2Proof.Machine

open Sys2Proof.Safety

/-- Two fetched bytes always run some instruction (R96). -/
theorem runBytes_exec (byte1 byte2 : Byte) (s : State) :
    ∃ i, decode [byte1, byte2] = .ok (i, []) ∧ runBytes byte1 byte2 s = exec i s := by
  obtain ⟨i, hi⟩ := decodeWord_ok (wordOf byte1 byte2)
  have h : decode [byte1, byte2] = .ok (i, []) := by simp [decode, hi]
  exact ⟨i, h, by simp [runBytes, h]⟩

/-- All that the second fetch read can lead to. -/
theorem fetchSecond_cases (b : Byte) (s : State) :
    (∃ ts ds, fetchSecond b s = .wait { s with cycle := .fetchByte2 b, keyboard := ts, diagnostics := ds })
      ∨ (∃ b2 ts ds, fetchSecond b s = .run b b2 { s with keyboard := ts, diagnostics := ds }) := by
  unfold fetchSecond
  cases h : busRead (s.pc + 1) s with
  | none => exact .inl ⟨s.keyboard, s.diagnostics, rfl⟩
  | some p =>
    obtain ⟨ts, ds, e⟩ := busRead_some h
    exact .inr ⟨p.1, ts, ds, by rw [← e]⟩

/-- All that the fetch can lead to. -/
theorem fetchFirst_cases (s : State) :
    (∃ c ts ds, (c = .fetchByte1 ∨ ∃ b, c = .fetchByte2 b)
        ∧ fetchFirst s = .wait { s with cycle := c, keyboard := ts, diagnostics := ds })
      ∨ (∃ b1 b2 ts ds, fetchFirst s = .run b1 b2 { s with keyboard := ts, diagnostics := ds }) := by
  unfold fetchFirst
  cases h : busRead s.pc s with
  | none => exact .inl ⟨.fetchByte1, s.keyboard, s.diagnostics, .inl rfl, rfl⟩
  | some p =>
    obtain ⟨ts, ds, e⟩ := busRead_some h
    simp only [e]
    rcases fetchSecond_cases p.1 { s with keyboard := ts, diagnostics := ds } with ⟨ts', ds', h'⟩ | ⟨b2, ts', ds', h'⟩
    · exact .inl ⟨.fetchByte2 p.1, ts', ds', .inr ⟨_, rfl⟩, h'⟩
    · exact .inr ⟨p.1, b2, ts', ds', h'⟩

/-- All that the CPU's turn can do: nothing where no cycle may begin; block in the fetch; or run one instruction, on a state
that differs from `s` in the keyboard input, the diagnostics and `CycleInProgress` alone. -/
theorem cpuStep_cases (s : State) :
    (s.cycle = .idle ∧ s.lifecycle ≠ .running ∧ cpuStep s = .next s)
      ∨ ((s.cycle ≠ .idle ∨ s.lifecycle = .running) ∧ ∃ c ts ds, (c = .fetchByte1 ∨ ∃ b, c = .fetchByte2 b)
          ∧ cpuStep s = .next { s with cycle := c, keyboard := ts, diagnostics := ds })
      ∨ ((s.cycle ≠ .idle ∨ s.lifecycle = .running) ∧ ∃ i ts ds,
          cpuStep s = exec i { s with cycle := .idle, keyboard := ts, diagnostics := ds }) := by
  unfold cpuStep cpuAction
  cases hc : s.cycle with
  | idle =>
    by_cases hl : s.lifecycle = .running
    · dsimp only
      rw [if_pos hl]
      rcases fetchFirst_cases s with ⟨c, ts, ds, hb, e⟩ | ⟨b1, b2, ts, ds, e⟩ <;> rw [e]
      · exact .inr (.inl ⟨.inr hl, c, ts, ds, hb, rfl⟩)
      · obtain ⟨i, _, hi⟩ := runBytes_exec b1 b2 { s with keyboard := ts, diagnostics := ds }
        refine .inr (.inr ⟨.inr hl, i, ts, ds, ?_⟩)
        dsimp only
        rw [hi, hc]
    · dsimp only
      rw [if_neg hl]
      exact .inl ⟨rfl, hl, rfl⟩
  | fetchByte1 =>
    rcases fetchFirst_cases (s.blockIn .idle) with ⟨c, ts, ds, hb, e⟩ | ⟨b1, b2, ts, ds, e⟩ <;> simp only [e]
    · exact .inr (.inl ⟨.inl (by simp), c, ts, ds, hb, rfl⟩)
    · obtain ⟨i, _, hi⟩ := runBytes_exec b1 b2 { s.blockIn .idle with keyboard := ts, diagnostics := ds }
      exact .inr (.inr ⟨.inl (by simp), i, ts, ds, hi⟩)
  | fetchByte2 b =>
    rcases fetchSecond_cases b (s.blockIn .idle) with ⟨ts, ds, e⟩ | ⟨b2, ts, ds, e⟩ <;> simp only [e]
    · exact .inr (.inl ⟨.inl (by simp), .fetchByte2 b, ts, ds, .inr ⟨b, rfl⟩, rfl⟩)
    · obtain ⟨i, _, hi⟩ := runBytes_exec b b2 { s.blockIn .idle with keyboard := ts, diagnostics := ds }
      exact .inr (.inr ⟨.inl (by simp), i, ts, ds, hi⟩)
  | handlerRead i => exact .inr (.inr ⟨.inl (by simp), i, s.keyboard, s.diagnostics, rfl⟩)

/-- A step is the turn at the head of the schedule: the CPU's, or that of the timer clock or the host. -/
theorem step_cases (s : State) :
    (∃ rest, CpuTurn s rest ∧ step s = cpuStep { s with schedule := rest })
      ∨ (∃ e rest, s.schedule = .event e :: rest ∧ step s = performEvent e { s with schedule := rest }) := by
  unfold step
  cases h : s.schedule with
  | nil => exact .inl ⟨[], .inl ⟨h, rfl⟩, by show cpuStep s = _; rw [← h]⟩
  | cons t rest =>
    cases t with
    | cpu => exact .inl ⟨rest, .inr h, rfl⟩
    | event e => exact .inr ⟨e, rest, rfl, rfl⟩

/-- The CPU's turn is a step of the state with the turn taken off the schedule. -/
theorem step_of_cpuTurn {s : State} {rest : List Turn} (h : CpuTurn s rest) :
    step s = cpuStep { s with schedule := rest } := by
  rcases h with ⟨h, rfl⟩ | h
  · simp only [step, h]; show cpuStep s = _; rw [← h]
  · simp only [step, h]

/-- Peel one step off a run of the machine. -/
theorem run_succ {s t : State} (h : step s = .next t) (k : Nat) :
    Sys2Proof.core.run (k + 1) s = Sys2Proof.core.run k t := by
  have hs : Sys2Proof.core.step s = .next t := h
  simp only [Host.Core.run, hs]

end Sys2Proof.Machine
end

