-- ==== Sys2Proof/Laws/Reset.lean ====
section
/-! SUPPORT. The state after reset: its storage is in canonical form, for every ROM image, and it is the state `initialize()`
leaves for variant F and the empty image. -/

namespace Sys2Proof.Machine

theorem reset_mem_wf : State.reset.mem.wf = true := by decide

/-- The storage that `initialize()` leaves is in canonical form, whatever the image (R60). -/
theorem initial_mem_wf (c : Config) (image : List Byte) : (State.initial c image).mem.wf = true := by
  simp [State.initial, Memory.wf, cellsWf, romCells_wf]

theorem reset_eq_initial : State.initial Config.variantF [] = State.reset := rfl

end Sys2Proof.Machine
end

