-- ==== Sys2Proof/Tests/Slice0.lean ====
section
/-! SUPPORT. Tests of the model, and for every obligation with hypotheses a concrete witness that meets them. The expected
results are those of spec/95_test_vectors.md (named beside each test) or of the rule named; variant F, from the reset state
with the lifecycle `Running`, unless a test says otherwise. -/

namespace Sys2Proof.Tests

open Sys2Proof Sys2Proof.Machine Sys2Proof.Safety

/-! ### Helpers -/

/-- The next state of an outcome. -/
def nextOf : Host.Outcome State Fault Refusal → Option State
  | .next t => some t
  | .fault _ => none
  | .refused _ => none

/-- The start state of the vectors. -/
def start : State := { State.reset with lifecycle := .running, diagnostics := [] }

/-- The start state with `r0`, `r1`, `r2` set. -/
def regs3 (a b c : Byte) : State := ((start.setReg 0 a).setReg 1 b).setReg 2 c

/-- The start state with `A` set. -/
def pointA (a : Addr) : State := { start with regA := a }

/-- The start state with keyboard tokens waiting. -/
def typed (texts : List (List Char)) : State := { start with keyboard := texts.map (fun t => ⟨t, 0xEE⟩) }

/-- The start state with the turns of the other agents to come. -/
def turns (es : List Turn) : State := { start with schedule := es }

/-- One step on the word `w` placed at `P`. -/
def runWord (w : Nat) (s : State) : Option State := nextOf (step (s.withFetchWord 16 w))

/-- What a fatal cycle shows: the lifecycle state, `P`, and the last diagnostic. -/
def fatalView (t : State) : Lifecycle × Addr × Option Diagnostic := (t.lifecycle, t.pc, t.diagnostics.getLast?)

/-! ### WellFormed: an ill-formed term of each format that has a register check is refused (R98) -/

theorem test_wf_RI : (Instr.store 8 0x01).wellFormed = false ∧ (Instr.store 7 0x01).wellFormed = true := by decide

theorem test_wf_RRR : (Instr.add 8 1 2).wellFormed = false ∧ (Instr.sub 0 1 8).wellFormed = false
    ∧ (Instr.draw 15 7 15).badField = some (.fX, 15) ∧ (Instr.draw 7 7 7).wellFormed = true := by decide

theorem test_wf_R : (Instr.read 10).wellFormed = false ∧ (Instr.write 8).wellFormed = false
    ∧ (Instr.readKeyboard 8).wellFormed = false ∧ (Instr.readT 8).wellFormed = false
    ∧ (Instr.convertToBase10 8).wellFormed = false := by decide

theorem test_wf_RR : (Instr.skipEqual 8 0).wellFormed = false ∧ (Instr.skipNotEqual 15 0).wellFormed = false
    ∧ (Instr.convertByteToAscii 9 1).wellFormed = false ∧ (Instr.convertByteToAscii 0 1).wellFormed = true := by decide

theorem test_wf_unchecked : (Instr.jump 0x800).wellFormed = true ∧ Instr.switchMemory.wellFormed = true
    ∧ (Instr.setA 0x800).wellFormed = true ∧ (Instr.setT 0x00).wellFormed = true := by decide

theorem test_configWf : configWf Config.variantF = true
    ∧ configWf { romBase := 0x0000, keyboardBase := 0x1FFF, displayBase := 0xF000 } = false
    ∧ configWf { romBase := 0xE001, keyboardBase := 0x0000, displayBase := 0x1000 } = false
    ∧ configWf { romBase := 0x0000, keyboardBase := 0xFE00, displayBase := 0xFFC0 } = true := by decide

/-! ### Decoding: words written out bit by bit from R93 and R95 (V-ENC) -/

theorem test_decode_load_arith : decodeTableWord 16 0b0000_0111_0100_0001 = some (.store 7 0x41)
    ∧ decodeTableWord 16 0b0001_0000_1001_0010 = some (.add 0 1 2)
    ∧ decodeTableWord 16 0b0010_0011_0100_0101 = some (.sub 3 4 5) := by decide

theorem test_decode_memory : decodeTableWord 16 0b0011_0111_1111_1111 = some (.read 7)
    ∧ decodeTableWord 16 0b0100_0011_0000_0000 = some (.write 3)
    ∧ decodeTableWord 16 0b0111_1010_1011_1100 = some .switchMemory
    ∧ decodeTableWord 16 0b1010_1111_1111_1111 = some (.setA 0xFFF) := by decide

theorem test_decode_control : decodeTableWord 16 0b0101_1010_1011_1100 = some (.jump 0xABC)
    ∧ decodeTableWord 16 0b1000_0001_1010_1111 = some (.skipEqual 1 2)
    ∧ decodeTableWord 16 0b1001_0001_0010_0000 = some (.skipNotEqual 1 2) := by decide

theorem test_decode_io : decodeTableWord 16 0b0110_0000_0000_0000 = some (.readKeyboard 0)
    ∧ decodeTableWord 16 0b1011_1111_0001_0000 = some (.setT 0x10)
    ∧ decodeTableWord 16 0b1100_0010_0000_0000 = some (.readT 2)
    ∧ decodeTableWord 16 0b1111_0000_0110_0111 = some (.draw 0 6 7)
    ∧ decodeTableWord 16 0b1111_1111_1111_1111 = some (.draw 15 7 15) := by decide

theorem test_decode_convert : decodeTableWord 16 0b1101_0000_0000_0000 = some (.convertToBase10 0)
    ∧ decodeTableWord 16 0b1110_0000_0001_0000 = some (.convertByteToAscii 0 1) := by decide

theorem test_decode_short : decode [] = .error .truncated ∧ decode [0x00] = .error .truncated := ⟨rfl, rfl⟩

/-! ### The instructions (spec/95_test_vectors.md, parts 1 and 2) -/

/-- V-STORE. -/
theorem test_store : (runWord 0x0041 (regs3 0x99 0 0)).map (fun t => (t.reg 0, t.pc)) = some (0x41, 0x0002)
    ∧ (runWord 0x07FF start).map (fun t => t.reg 7) = some 0xFF := by decide

/-- S4. -/
theorem test_add_wraps : (runWord 0x1012 (regs3 0xFF 0x01 0)).map (fun t => (t.reg 2, t.pc)) = some (0x00, 0x0002) := by
  decide

/-- V-ADD: the destination is both sources. -/
theorem test_add_same : (runWord 0x1111 (regs3 0 0x90 0)).map (fun t => t.reg 1) = some 0x20 := by decide

/-- V-SUB: `rX - rY`, with a borrow. -/
theorem test_sub_borrow : (runWord 0x2345 ((start.setReg 3 0x10).setReg 4 0x20)).map (fun t => (t.reg 5, t.pc))
    = some (0xF0, 0x0002) := by decide

/-- V-SUB: the destination is the minuend. -/
theorem test_sub_into_source : (runWord 0x2010 (regs3 5 1 0)).map (fun t => (t.reg 0, t.reg 1)) = some (4, 1) := by decide

/-- V-SETA: the top four bits are cleared, odd values accepted. -/
theorem test_setA : (runWord 0xA123 (pointA 0xFFFF)).map (fun t => (t.regA, t.pc)) = some (0x0123, 0x0002) := by decide

/-- S8: an unmapped read. -/
theorem test_read_unmapped : (runWord 0x3100 (pointA 0x2000)).map (fun t => (t.reg 1, t.pc, t.lifecycle, t.diagnostics))
    = some (0xFF, 0x0002, .running, [.unmappedAccess .read 0x2000]) := by decide

/-- V-READ: READ reads its own first byte; the display; the keyboard, whose token is consumed. -/
theorem test_read_devices : (runWord 0x3000 start).map (fun t => t.reg 0) = some 0x30
    ∧ (runWord 0x3100 (pointA 0xF000)).map (fun t => t.reg 1) = some 0x20
    ∧ (runWord 0x3100 { typed [['2', 'A']] with regA := 0xFE00 }).map (fun t => (t.reg 1, t.keyboard)) = some (0x2A, []) := by
  decide

/-- V-WRITE: the last byte of the RAM, and a display cell above 0x7F. -/
theorem test_write_stores : (runWord 0x4200 { regs3 0 0 0x5A with regA := 0x1FFF }).map (fun t => (t.mem.ram, t.pc))
      = some ([(4095, 0x5A)], 0x0002)
    ∧ (runWord 0x4200 { regs3 0 0 0xC3 with regA := 0xF03F }).map (fun t => t.mem.read .display 63) = some 0xC3 := by decide

/-- V-WRITE: ROM and the keyboard refuse; no token is consumed. -/
theorem test_write_refused : (runWord 0x4200 (pointA 0x0FFF)).map fatalView
      = some (.shutDown, 0x0000, some (.fatal (.readOnlyDeviceViolation 0x0FFF) 0x0000))
    ∧ (runWord 0x4200 { typed [['7']] with regA := 0xFE00 }).map (fun t => (fatalView t, t.keyboard.length))
      = some ((.shutDown, 0x0000, some (.fatal (.readOnlyDeviceViolation 0xFE00) 0x0000)), 1) := by decide

/-- V-SWITCH. -/
theorem test_switch : (runWord 0x7ABC start).map (fun t => (t.flagM, t.pc)) = some (true, 0x0002)
    ∧ (runWord 0x7000 { start with flagM := true }).map (fun t => t.flagM) = some false := by decide

/-- S2. -/
theorem test_jump : (runWord 0x5ABC start).map (fun t => t.pc) = some 0x0ABC
    ∧ (runWord 0x5ABD start).map fatalView = some (.shutDown, 0x0000, some (.fatal (.oddJumpTarget 0xABD) 0x0000)) := by decide

/-- V-JUMP: from the display; the top four bits of `P` are cleared. -/
theorem test_jump_low : (runWord 0x5010 { start with pc := 0xF000 }).map (fun t => t.pc) = some 0x0010 := by decide

/-- S3. -/
theorem test_skipEqual : (runWord 0x8120 { regs3 0 7 7 with pc := 0x0010 }).map (fun t => t.pc) = some 0x0014
    ∧ (runWord 0x8120 { regs3 0 7 8 with pc := 0x0010 }).map (fun t => t.pc) = some 0x0012 := by decide

/-- S3. -/
theorem test_skipNotEqual : (runWord 0x9120 { regs3 0 7 8 with pc := 0x0010 }).map (fun t => t.pc) = some 0x0014
    ∧ (runWord 0x9120 { regs3 0 7 7 with pc := 0x0010 }).map (fun t => t.pc) = some 0x0012 := by decide

/-- V-KBD: two tokens are consumed in order, one per read; without one the cycle blocks and `P` stays. -/
theorem test_readKeyboard : (runWord 0x6000 (typed [['1', '1'], ['2', '2']])).map (fun t => (t.reg 0, t.pc, t.keyboard.length))
      = some (0x11, 0x0002, 1)
    ∧ (runWord 0x6000 start).map (fun t => (t.cycle, t.pc)) = some (.handlerRead (.readKeyboard 0), 0x0000) := by decide

/-- V-KBD: the tokens of the table. -/
theorem test_token_bytes : tokenByte ['7'] = some 0x07 ∧ tokenByte ['0', 'x', '1', 'F'] = some 0x1F
    ∧ tokenByte ['F', 'F'] = some 0xFF ∧ tokenByte ['0', 'x', '1', '2', '3', '4'] = some 0x34 ∧ tokenByte [] = some 0x00
    ∧ tokenByte ['z', 'z'] = some 0x00 := by decide

/-- R64: a text that is not hexadecimal under any reading, behind a prefix too. -/
theorem test_token_alien : tokenByte ['0', 'x', 'z'] = some 0x00 ∧ tokenByte ['0', 'X', 'z'] = some 0x00
    ∧ tokenByte [' '] = some 0x00 := by decide

/-- U11: forms whose byte the spec does not state. -/
theorem test_token_unstated : tokenByte ['0', 'x'] = none ∧ tokenByte ['1', '2', '3'] = none ∧ tokenByte ['f'] = none
    ∧ tokenByte [' ', '7'] = none ∧ tokenByte ['7', Char.ofNat 0xA0] = none ∧ tokenByte ['0', 'X', '7'] = none := by decide

/-- V-TIMER. -/
theorem test_setT : (runWord 0xB003 start).map (fun t => (t.regT, t.timerActive, t.pc)) = some (3, true, 0x0002)
    ∧ (runWord 0xB000 { start with regT := 9, timerActive := true }).map (fun t => (t.regT, t.timerActive))
      = some (0, false) := by decide

/-- V-TIMER. -/
theorem test_readT : (runWord 0xC200 { start with regT := 0x2A }).map (fun t => (t.reg 2, t.regT, t.pc))
    = some (0x2A, 0x2A, 0x0002) := by decide

/-- V-TIMER: the tick that ends the activity, and one that does not. -/
theorem test_tick : (nextOf (step { turns [.event .tick] with regT := 1, timerActive := true })).map
      (fun t => (t.regT, t.timerActive)) = some (0, false)
    ∧ (nextOf (step { turns [.event .tick] with regT := 200, timerActive := true })).map
      (fun t => (t.regT, t.timerActive)) = some (199, true) := by decide

/-- S7. -/
theorem test_draw : (runWord 0xF012 (regs3 0x43 1 5)).map (fun t => (t.mem.display, t.pc)) = some ([(13, 0x43)], 0x0002)
    ∧ (runWord 0xF012 (regs3 0x43 8 0)).map fatalView
      = some (.shutDown, 0x0000, some (.fatal (.drawOperandOutOfRange .row 8) 0x0000)) := by decide

/-- V-DRAW: all three checks fail, the character is reported. -/
theorem test_draw_order : (runWord 0xF012 (regs3 0x80 8 8)).map fatalView
    = some (.shutDown, 0x0000, some (.fatal (.drawOperandOutOfRange .character 0x80) 0x0000)) := by decide

/-- S5. -/
theorem test_base10 : (runWord 0xD000 { regs3 255 0 0 with regA := 0x1000 }).map (fun t => (t.mem.ram, t.pc))
    = some ([(0, 2), (1, 5), (2, 5)], 0x0002) := by decide

/-- V-CONV: the first write unmapped, the second wraps into the ROM and is fatal, the third is not attempted. -/
theorem test_base10_wraps : (runWord 0xD000 { regs3 255 0 0 with regA := 0xFFFF }).map (fun t => (t.diagnostics, t.pc, t.lifecycle))
    = some ([.unmappedAccess .write 0xFFFF, .fatal (.readOnlyDeviceViolation 0x0000) 0x0000], 0x0000, .shutDown) := by decide

/-- S6. -/
theorem test_ascii : (runWord 0xE010 (regs3 0x0A 0 0)).map (fun t => (t.reg 1, t.pc)) = some (0x41, 0x0002)
    ∧ (runWord 0xE010 (regs3 0x10 0x77 0)).map (fun t => (t.reg 1, fatalView t))
      = some (0x77, .shutDown, 0x0000, some (.fatal (.asciiOperandOutOfRange 0x10) 0x0000)) := by decide

/-- V-ASCII: the digit branch. -/
theorem test_ascii_digit : (runWord 0xE000 (regs3 0x09 0 0)).map (fun t => t.reg 0) = some 0x39 := by decide

/-! ### The register-number check, the fetch, the lifecycle (V-ENC, V-FETCH, V-LIFE) -/

/-- V-ENC: both fields out of range, `fX` reported; a waiting token is not consumed. -/
theorem test_invalid_register : (runWord 0x2F0F start).map fatalView
      = some (.shutDown, 0x0000, some (.fatal (.invalidRegisterIndex .fX 15) 0x0000))
    ∧ (runWord 0x1018 start).map fatalView
      = some (.shutDown, 0x0000, some (.fatal (.invalidRegisterIndex .fZ 8) 0x0000))
    ∧ (runWord 0x6800 (typed [['7']])).map (fun t => t.keyboard.length) = some 1 := by decide

/-- V-FETCH: an odd `P`. -/
theorem test_fetch_odd : (nextOf (step { start with pc := 0x0001, mem := { rom := romCells 0 [0x00, 0x01, 0x23, 0x45] } })).map
    (fun t => (t.reg 1, t.pc)) = some (0x23, 0x0003) := by decide

/-- V-FETCH: the display as code, with the advance of `P` past the top of the address space. -/
theorem test_fetch_display_wraps :
    (nextOf (step { ((start.setReg 0 5).setReg 2 7) with
      pc := 0xFFFE, config := { Config.variantF with displayBase := 0xFFC0 } })).map (fun t => (t.reg 0, t.pc))
    = some (0xFE, 0x0000) := by decide

/-- V-FETCH: unmapped addresses. -/
theorem test_fetch_unmapped : (nextOf (step { start with pc := 0x2000 })).map (fun t => (t.pc, t.diagnostics))
    = some (0x2000, [.unmappedAccess .read 0x2000, .unmappedAccess .read 0x2001,
        .fatal (.invalidRegisterIndex .fX 15) 0x2000]) := by decide

/-- V-FETCH: `P` at the keyboard, without a token and with one: the word is then `07FF`, since 0xFE01 is
unmapped. -/
theorem test_fetch_keyboard : (nextOf (step { start with pc := 0xFE00 })).map (fun t => t.cycle) = some .fetchByte1
    ∧ (nextOf (step { typed [['7']] with pc := 0xFE00 })).map (fun t => (t.reg 7, t.pc, t.keyboard)) = some (0xFF, 0xFE02, []) := by
  decide

/-- V-LIFE: a blocked cycle completes in `Paused`, and in `ShutDown`. -/
theorem test_blocked_completes :
    (nextOf (step { typed [['9']] with lifecycle := .paused, cycle := .handlerRead (.readKeyboard 0) })).map
      (fun t => (t.reg 0, t.pc, t.lifecycle, t.cycle)) = some (0x09, 0x0002, .paused, .idle)
    ∧ (nextOf (step { typed [['9']] with lifecycle := .shutDown, cycle := .handlerRead (.readKeyboard 0) })).map
      (fun t => (t.reg 0, t.pc, t.lifecycle, t.cycle)) = some (0x09, 0x0002, .shutDown, .idle) := by decide

/-- R127: a fetch blocked in its second read keeps `byte1`, whatever the machine now holds at `P`; the word is `0309`. -/
theorem test_blocked_fetch : (nextOf (step { typed [['9']] with pc := 0xFDFF, lifecycle := .paused, cycle := .fetchByte2 0x03 })).map
    (fun t => (t.reg 3, t.pc, t.keyboard, t.cycle)) = some (0x09, 0xFE01, [], .idle) := by decide

/-- V-LIFE. -/
theorem test_lifecycle : (nextOf (step { turns [.event (.call .start)] with lifecycle := .stopped })).map
      (fun t => (t.lifecycle, t.diagnostics)) = some (.running, [])
    ∧ (nextOf (step { turns [.event (.call .start)] with lifecycle := .paused })).map
      (fun t => (t.lifecycle, t.diagnostics)) = some (.paused, [.callIgnored .start .paused])
    ∧ (nextOf (step { turns [.event (.call .shutdown)] with regT := 3, timerActive := true })).map
      (fun t => (t.lifecycle, t.regT, t.timerActive)) = some (.shutDown, 3, false) := by decide

/-- R60: a short image is padded; V-MAP's three bytes. -/
theorem test_image : (State.initial Config.variantF [0xAA, 0xBB, 0xCC]).mem.rom = [(0, 0xAA), (1, 0xBB), (2, 0xCC)]
    ∧ (State.initial Config.variantF [0xAA]).diagnostics = [.romImagePadded] := by decide

/-- R67, V-DRAW: the rendered row of the vector. -/
theorem test_render_row : renderRow { start with mem := { display := [(0, 0x48), (1, 0x49), (2, 0x05), (3, 0x7F), (4, 0x7E)] } } 0
    = ['H', 'I', '.', '.', '~', ' ', ' ', ' ', '\n'] := by decide

/-- From `State.reset`, the placed instruction is the first to run. -/
theorem test_first_instruction : (runWord 0x0741 State.reset).map (fun t => (t.reg 7, t.pc)) = some (0x41, 0x0002) := by decide

/-- With nothing placed and no turn of the host, the reset state stays as it is: `start()` has not been called (R252). -/
theorem test_reset_waits : step State.reset = .next State.reset := rfl

/-! ### Witnesses: for every obligation with hypotheses, values that meet them, for each of its clauses and at the ends of
its ranges -/

/-- A configuration with the RAM within reach of SET_A and every device below 0x3000. -/
def lowConfig : Config := { romBase := 0x1000, keyboardBase := 0x0000, displayBase := 0x0010 }

theorem witness_EveryPairOfBytesDecodes : ∃ b1 b2 : Byte, decode [b1, b2] = .ok (.draw 15 7 15, []) := ⟨0xFF, 0xFF, rfl⟩

theorem witness_IgnoredBitsHaveNoEffect : decodeWord 0xBF10 = .ok (.setT 0x10)
    ∧ (0x1092 : Word).extractLsb' 12 4 = (0x1012 : Word).extractLsb' 12 4
    ∧ (0x1092 : Word) &&& usedBits ((0x1092 : Word).extractLsb' 12 4)
        = 0x1012 &&& usedBits ((0x1092 : Word).extractLsb' 12 4) := ⟨rfl, by decide, by decide⟩

/-- The two sides of the register-number check, at their boundary: for every statement that has the hypotheses `fX < 8`
and `8 ≤ fX` (and the same of `fZ`) and no others beside them. -/
theorem witness_StoreLoadsImmediate : (7#4).toNat < 8 ∧ 8 ≤ (8#4).toNat := by decide

theorem witness_AddWritesSum : ((7#4).toNat < 8 ∧ (0#4).toNat < 8) ∧ 8 ≤ (8#4).toNat
    ∧ ((7#4).toNat < 8 ∧ 8 ≤ (8#4).toNat) := by decide

theorem witness_SubWritesDifference : ((7#4).toNat < 8 ∧ (0#4).toNat < 8) ∧ 8 ≤ (8#4).toNat
    ∧ ((7#4).toNat < 8 ∧ 8 ≤ (15#4).toNat) := by decide

theorem witness_ReadLoadsByte : (7#4).toNat < 8
    ∧ route (pointA 0x0FFF).config (pointA 0x0FFF).regA = .cell .rom 4095
    ∧ route (pointA 0x1000).config (pointA 0x1000).regA = .cell .ram 0
    ∧ (route (pointA 0xFE00).config (pointA 0xFE00).regA = .keyboard ∧ (pointA 0xFE00).keyboard = [])
    ∧ (typed [['7']]).keyboard = ⟨['7'], 0xEE⟩ :: []
    ∧ route (pointA 0x2000).config (pointA 0x2000).regA = .unmapped ∧ 8 ≤ (8#4).toNat := by decide

theorem witness_WriteStoresRegister : (7#4).toNat < 8
    ∧ (Store.ram ≠ .rom ∧ route (pointA 0x1FFF).config (pointA 0x1FFF).regA = .cell .ram 4095)
    ∧ (Store.display ≠ .rom ∧ route (pointA 0xF03F).config (pointA 0xF03F).regA = .cell .display 63)
    ∧ route (pointA 0x0FFF).config (pointA 0x0FFF).regA = .cell .rom 4095
    ∧ route (pointA 0xFE00).config (pointA 0xFE00).regA = .keyboard
    ∧ route (pointA 0xF040).config (pointA 0xF040).regA = .unmapped ∧ 8 ≤ (8#4).toNat := by decide

theorem witness_WriteChangesOneByte : (7#4).toNat < 8 ∧ writeRefused (pointA 0x1000).config (pointA 0x1000).regA = false
    ∧ byteAt (pointA 0x1000) (pointA 0x1000).regA = some 0x00 := by decide

theorem witness_JumpSetsPc : (0xFFE#12).toNat % 2 = 0 ∧ (0x001#12).toNat % 2 = 1 := by decide

theorem witness_SkipEqualSkips : (7#4).toNat < 8 ∧ (regs3 0 7 7).reg 1 = (regs3 0 7 7).reg 2
    ∧ (regs3 0 7 8).reg 1 ≠ (regs3 0 7 8).reg 2 ∧ 8 ≤ (8#4).toNat := by decide

theorem witness_SkipNotEqualSkips : (7#4).toNat < 8 ∧ (regs3 0 7 8).reg 1 ≠ (regs3 0 7 8).reg 2
    ∧ (regs3 0 7 7).reg 1 = (regs3 0 7 7).reg 2 ∧ 8 ≤ (8#4).toNat := by decide

theorem witness_ReadKeyboardLoadsToken : ((7#4).toNat < 8 ∧ (typed [['7']]).keyboard = ⟨['7'], 0xEE⟩ :: [])
    ∧ ((7#4).toNat < 8 ∧ start.keyboard = []) ∧ 8 ≤ (8#4).toNat := by decide

theorem witness_SetTLoadsTimer : start.lifecycle ≠ .shutDown := by decide

theorem witness_SetTAfterShutdown : { start with lifecycle := .shutDown }.lifecycle = .shutDown := rfl

theorem witness_ReadTCopiesTimer : (7#4).toNat < 8 ∧ 8 ≤ (8#4).toNat := by decide

/-- `DRAW r0, r1, r2` with each operand at the ends of its range, and each just out of it. -/
theorem witness_DrawWritesCell : ((0#4).toNat < 8 ∧ (2#4).toNat < 8)
    ∧ ((regs3 0x7F 7 7).reg 0 = 0x7F ∧ (0x7F : Byte).toNat ≤ 0x7F ∧ (7 : Byte).toNat < 8)
    ∧ ((regs3 0x80 0 0).reg 0 = 0x80 ∧ 0x7F < (0x80 : Byte).toNat)
    ∧ ((regs3 0x7F 8 0).reg 1 = 8 ∧ 8 ≤ (8 : Byte).toNat)
    ∧ ((regs3 0x7F 7 8).reg 2 = 8 ∧ 8 ≤ (8 : Byte).toNat)
    ∧ 8 ≤ (8#4).toNat ∧ ((7#4).toNat < 8 ∧ 8 ≤ (8#4).toNat) := by decide

/-- `A` where no write is refused (also across the end of the RAM), and where the first, second and third write is. -/
theorem witness_ConvertToBase10WritesDigits : (7#4).toNat < 8
    ∧ (writeRefused Config.variantF 0x1FFE = false ∧ writeRefused Config.variantF (0x1FFE + 1) = false
        ∧ writeRefused Config.variantF (0x1FFE + 2) = false)
    ∧ writeRefused Config.variantF 0x0FFF = true
    ∧ (writeRefused Config.variantF 0xFFFF = false ∧ writeRefused Config.variantF (0xFFFF + 1) = true)
    ∧ (writeRefused Config.variantF 0xFDFE = false ∧ writeRefused Config.variantF (0xFDFE + 1) = false
        ∧ writeRefused Config.variantF (0xFDFE + 2) = true) ∧ 8 ≤ (8#4).toNat := by decide

theorem witness_ConvertToBase10ChangesThreeBytes : (7#4).toNat < 8
    ∧ writeRefused (pointA 0x1000).config (pointA 0x1000).regA = false
    ∧ writeRefused (pointA 0x1000).config ((pointA 0x1000).regA + 1) = false
    ∧ writeRefused (pointA 0x1000).config ((pointA 0x1000).regA + 2) = false
    ∧ byteAt (pointA 0x1000) 0x1000 = some 0x00 ∧ byteAt (pointA 0x1000) 0x1001 = some 0x00
    ∧ byteAt (pointA 0x1000) 0x1002 = some 0x00 := by decide

theorem witness_ConvertByteToAsciiWritesDigit : (7#4).toNat < 8
    ∧ ((regs3 9 0 0).reg 0 = 9 ∧ (9 : Byte).toNat ≤ 9)
    ∧ ((regs3 10 0 0).reg 0 = 10 ∧ 10 ≤ (10 : Byte).toNat ∧ (10 : Byte).toNat ≤ 0x0F)
    ∧ ((regs3 16 0 0).reg 0 = 16 ∧ 0x0F < (16 : Byte).toNat) ∧ 8 ≤ (8#4).toNat := by decide

theorem witness_InvalidRegisterIsFatal : (Instr.store 8 0).badField = some (.fX, 8)
    ∧ (Instr.add 7 0 8).badField = some (.fZ, 8) := by decide

/-- An instruction that advances, one that is fatal, and one that blocks. -/
theorem witness_AdvanceByTwoOrFatalOrBlocked : (∃ t, exec .switchMemory start = .next t)
    ∧ (∃ t, exec (.store 8 0) start = .next t) ∧ (∃ t, exec (.readKeyboard 0) start = .next t)
    ∧ (∀ aaa, Instr.switchMemory ≠ .jump aaa) ∧ (∀ fX fY, Instr.switchMemory ≠ .skipEqual fX fY)
    ∧ (∀ fX fY, Instr.switchMemory ≠ .skipNotEqual fX fY) :=
  ⟨⟨_, rfl⟩, ⟨_, rfl⟩, ⟨_, rfl⟩, nofun, nofun, nofun⟩

/-- The five clauses, each at the ends of its range, and an address that two devices contain in a mis-wired configuration. -/
theorem witness_RouterFirstMatch :
    (inRom Config.variantF 0x0000)
    ∧ (inRom Config.variantF 0x0FFF)
    ∧ (¬inRom Config.variantF 0x1000 ∧ inRam Config.variantF 0x1000)
    ∧ (¬inRom Config.variantF 0x1FFF ∧ inRam Config.variantF 0x1FFF)
    ∧ (¬inRom Config.variantF 0xFE00 ∧ ¬inRam Config.variantF 0xFE00 ∧ atKeyboard Config.variantF 0xFE00)
    ∧ (¬inRom Config.variantF 0xF000 ∧ ¬inRam Config.variantF 0xF000
        ∧ ¬atKeyboard Config.variantF 0xF000 ∧ inDisplay Config.variantF 0xF000)
    ∧ (¬inRom Config.variantF 0xF03F ∧ ¬inRam Config.variantF 0xF03F
        ∧ ¬atKeyboard Config.variantF 0xF03F ∧ inDisplay Config.variantF 0xF03F)
    ∧ (¬inRom Config.variantF 0x2000 ∧ ¬inRam Config.variantF 0x2000
        ∧ ¬atKeyboard Config.variantF 0x2000 ∧ ¬inDisplay Config.variantF 0x2000)
    ∧ (¬inRom Config.variantF 0xF040 ∧ ¬inRam Config.variantF 0xF040
        ∧ ¬atKeyboard Config.variantF 0xF040 ∧ ¬inDisplay Config.variantF 0xF040)
    ∧ (¬inRom Config.variantF 0xFFFF ∧ ¬inRam Config.variantF 0xFFFF
        ∧ ¬atKeyboard Config.variantF 0xFFFF ∧ ¬inDisplay Config.variantF 0xFFFF)
    ∧ route { Config.variantF with keyboardBase := 0x0FFF } 0x0FFF = .cell .rom 4095 := by decide

theorem witness_WellFormedConfigOneOwner : configWf Config.variantF = true
    ∧ deviceOwns Config.variantF 0x1000 .ram = true := by decide

theorem witness_MemReadByTarget : inRom start.config 0x0FFF
    ∧ (¬inRom start.config 0x1FFF ∧ inRam start.config 0x1FFF)
    ∧ (¬inRom start.config 0xFE00 ∧ ¬inRam start.config 0xFE00 ∧ atKeyboard start.config 0xFE00)
    ∧ (typed [['7']]).keyboard = ⟨['7'], 0xEE⟩ :: [] ∧ start.keyboard = []
    ∧ (¬inRom start.config 0xF03F ∧ ¬inRam start.config 0xF03F ∧ ¬atKeyboard start.config 0xF03F
        ∧ inDisplay start.config 0xF03F)
    ∧ (¬inRom start.config 0xF040 ∧ ¬inRam start.config 0xF040 ∧ ¬atKeyboard start.config 0xF040
        ∧ ¬inDisplay start.config 0xF040) := by decide

theorem witness_MemWriteByTarget : inRom start.config 0x0000
    ∧ (¬inRom start.config 0x1000 ∧ inRam start.config 0x1000)
    ∧ (¬inRom start.config 0xFE00 ∧ ¬inRam start.config 0xFE00 ∧ atKeyboard start.config 0xFE00)
    ∧ (¬inRom start.config 0xF000 ∧ ¬inRam start.config 0xF000 ∧ ¬atKeyboard start.config 0xF000
        ∧ inDisplay start.config 0xF000)
    ∧ (¬inRom start.config 0x2000 ∧ ¬inRam start.config 0x2000 ∧ ¬atKeyboard start.config 0x2000
        ∧ ¬inDisplay start.config 0x2000) := by decide

theorem witness_StorageReadAfterWrite : Store.ram ≠ .display ∨ (0 : Nat) ≠ 1 := by decide

theorem witness_DirectAccessEqualsRouted : configWf lowConfig = true ∧ (7 : Byte).toNat < 8 := by decide

theorem witness_InitialiseLoadsImage : configWf Config.variantF = true ∧ (0 : Nat) < 4096 ∧ (4095 : Nat) < 4096
    ∧ (List.replicate 4095 (0x01 : Byte)).length < 4096 ∧ (List.replicate 4096 (0x01 : Byte)).length = 4096
    ∧ 4096 < (List.replicate 4097 (0x01 : Byte)).length :=
  ⟨by decide, by decide, by decide, by rw [List.length_replicate]; decide, List.length_replicate,
    by rw [List.length_replicate]; decide⟩

/-- One to seven digits, white space, and a text with an alien character, alone or with white space before it. -/
theorem witness_KeyboardTokenBytes : (([15] : List (Fin 16)) ≠ [] ∧ ([15] : List (Fin 16)).length ≤ 7)
    ∧ (([1, 2, 3, 4, 5, 6, 15] : List (Fin 16)) ≠ [] ∧ ([1, 2, 3, 4, 5, 6, 15] : List (Fin 16)).length ≤ 7)
    ∧ (∀ c ∈ [Char.ofNat 0x1C, Char.ofNat 0xA0], isBlank c = true)
    ∧ (∃ c ∈ [' ', 'z'], isHexChar c = false ∧ isBlank c = false)
    ∧ ([' ', 'z'].dropWhile isBlank).take 2 ≠ ['0', 'x'] ∧ ([' ', 'z'].dropWhile isBlank).take 2 ≠ ['0', 'X'] :=
  ⟨by decide, by decide, List.forall_mem_cons.2 ⟨by decide, List.forall_mem_cons.2 ⟨by decide, nofun⟩⟩,
    ⟨'z', .tail _ (.head _), by decide, by decide⟩, by decide, by decide⟩

theorem witness_RenderShowsDisplay : (7 : Nat) < 8 ∧ (turns [.event .render]).schedule = .event .render :: [] := by decide

theorem witness_TickDecrementsTimer :
    (let s := { turns [.event .tick] with regT := 1, timerActive := true };
      s.schedule = .event .tick :: [] ∧ s.timerActive = true ∧ 0 < s.regT.toNat)
    ∧ (let s := { turns [.event .tick] with timerActive := true };
      s.schedule = .event .tick :: [] ∧ s.timerActive = true ∧ s.regT.toNat = 0)
    ∧ (let s := { turns [.event .tick] with regT := 5 };
      s.schedule = .event .tick :: [] ∧ s.timerActive = false) := by decide

theorem witness_TicksRunDown :
    let s := { turns [.event .tick, .event .tick, .event .tick, .cpu] with regT := 3, timerActive := true }
    s.schedule = List.replicate 3 (.event .tick) ++ [.cpu] ∧ s.timerActive = true ∧ 0 < s.regT.toNat
      ∧ 3 ≤ s.regT.toNat := by decide

/-- A step that lowers `T`, and one that raises it. -/
theorem witness_TimerNeverRises :
    ((nextOf (step { turns [.event .tick] with regT := 3, timerActive := true })).map (fun t => t.regT) = some 2)
    ∧ (runWord 0xB003 start).map (fun t => t.regT) = some 3 := by decide

/-- Each call, in a state where it acts and (but for `shutdown()`) in one where it does not. -/
theorem witness_LifecycleCalls : (turns [.event (.call .shutdown)]).schedule = .event (.call .shutdown) :: []
    ∧ (turns [.event (.call .start)]).schedule = .event (.call .start) :: []
    ∧ State.reset.lifecycle = .stopped ∧ start.lifecycle = .running
    ∧ { start with lifecycle := .paused }.lifecycle = .paused
    ∧ (start.lifecycle ≠ .stopped) ∧ (State.reset.lifecycle ≠ .running) ∧ (start.lifecycle ≠ .paused) := by decide

theorem witness_CpuTurn : CpuTurn start [] ∧ CpuTurn (turns [.cpu, .event .tick]) [.event .tick] :=
  ⟨.inl ⟨rfl, rfl⟩, .inr rfl⟩

theorem witness_NoCycleUnlessRunning : CpuTurn State.reset [] ∧ State.reset.cycle = .idle
    ∧ State.reset.lifecycle ≠ .running := ⟨.inl ⟨rfl, rfl⟩, rfl, by decide⟩

theorem witness_ShutDownIsTerminal :
    let s := { turns [.event (.call .start)] with lifecycle := .shutDown }
    s.lifecycle = .shutDown ∧ (∃ t, step s = .next t) ∧ s.cycle = .idle ∧ s.timerActive = false := ⟨rfl, ⟨_, rfl⟩, rfl, rfl⟩

theorem witness_OtherAgentsKeepCpuState :
    let s := turns [.event (.token ⟨['7'], 0⟩)]
    s.schedule = .event (.token ⟨['7'], 0⟩) :: [] ∧ (∃ t, step s = .next t) ∧ (Event.token ⟨['7'], 0⟩) ≠ .tick
      ∧ (∀ c, Event.token ⟨['7'], 0⟩ ≠ .call c) ∧ (∀ k, Event.tick ≠ .token k) := ⟨rfl, ⟨_, rfl⟩, nofun, nofun, nofun⟩

theorem witness_OnlyInitialiseIsRefused :
    step (turns [.event (.initialise Config.variantF [])]) = .refused .initialiseOutOfOrder
    ∧ configWf { Config.variantF with keyboardBase := 0x0FFF } = false := ⟨rfl, by decide⟩

theorem witness_BlockedReadWaits : CpuTurn start [] ∧ start.keyboard = [] ∧ (7#4).toNat < 8
    ∧ (let s := { pointA 0xFE00 with cycle := .handlerRead (.read 7) };
      CpuTurn s [] ∧ s.keyboard = [] ∧ s.cycle = .handlerRead (.read 7) ∧ route s.config s.regA = .keyboard)
    ∧ (let s := { start with pc := 0xFE00, cycle := .fetchByte1 };
      CpuTurn s [] ∧ s.keyboard = [] ∧ s.cycle = .fetchByte1 ∧ route s.config s.pc = .keyboard)
    ∧ (let s := { start with pc := 0xFDFF, cycle := .fetchByte2 0x03 };
      CpuTurn s [] ∧ s.keyboard = [] ∧ s.cycle = .fetchByte2 0x03 ∧ route s.config (s.pc + 1) = .keyboard)
    ∧ (let s := { start with cycle := .handlerRead (.readKeyboard 7) };
      CpuTurn s [] ∧ s.keyboard = [] ∧ s.cycle = .handlerRead (.readKeyboard 7)) :=
  ⟨.inl ⟨rfl, rfl⟩, rfl, by decide, ⟨.inl ⟨rfl, rfl⟩, rfl, rfl, by decide⟩, ⟨.inl ⟨rfl, rfl⟩, rfl, rfl, by decide⟩,
    ⟨.inl ⟨rfl, rfl⟩, rfl, rfl, by decide⟩, ⟨.inl ⟨rfl, rfl⟩, rfl, rfl⟩⟩

/-- The four blocked reads with a token there, in `Paused`; for the fetch of `byte1`, the keyboard lies before the display, whose
blank gives the word `0320`. -/
theorem witness_BlockedReadCompletes : ((7#4).toNat < 8 ∧ (typed [['3']]).keyboard = ⟨['3'], 0xEE⟩ :: [])
    ∧ (let s := { typed [['3']] with lifecycle := .paused, cycle := .handlerRead (.readKeyboard 7) };
      CpuTurn s [] ∧ s.cycle = .handlerRead (.readKeyboard 7) ∧ s.keyboard = ⟨['3'], 0xEE⟩ :: [])
    ∧ (let s := { typed [['3']] with regA := 0xFE00, lifecycle := .paused, cycle := .handlerRead (.read 7) };
      CpuTurn s [] ∧ s.cycle = .handlerRead (.read 7) ∧ s.keyboard = ⟨['3'], 0xEE⟩ :: []
        ∧ route s.config s.regA = .keyboard)
    ∧ (let s := { typed [['3']] with
          pc := 0xEFFF, lifecycle := .paused, cycle := .fetchByte1, config := { Config.variantF with keyboardBase := 0xEFFF } };
      CpuTurn s [] ∧ s.cycle = .fetchByte1 ∧ s.keyboard = ⟨['3'], 0xEE⟩ :: [] ∧ route s.config s.pc = .keyboard
        ∧ byteAt s (s.pc + 1) = some 0x20 ∧ decode [(⟨['3'], 0xEE⟩ : Token).byte, 0x20] = .ok (.store 3 0x20, []))
    ∧ (let s := { typed [['3']] with pc := 0xFDFF, lifecycle := .paused, cycle := .fetchByte2 0x03 };
      CpuTurn s [] ∧ s.cycle = .fetchByte2 0x03 ∧ s.keyboard = ⟨['3'], 0xEE⟩ :: []
        ∧ route s.config (s.pc + 1) = .keyboard
        ∧ decode [0x03, (⟨['3'], 0xEE⟩ : Token).byte] = .ok (.store 3 0x03, [])) :=
  ⟨⟨by decide, rfl⟩, ⟨.inl ⟨rfl, rfl⟩, rfl, rfl⟩, ⟨.inl ⟨rfl, rfl⟩, rfl, rfl, by decide⟩,
    ⟨.inl ⟨rfl, rfl⟩, rfl, rfl, by decide, by decide, rfl⟩, ⟨.inl ⟨rfl, rfl⟩, rfl, rfl, by decide, rfl⟩⟩

theorem witness_StepRunsDecodedInstruction : CpuTurn start [] ∧ start.cycle = .idle ∧ start.lifecycle = .running
    ∧ byteAt start start.pc = some 0x00 ∧ byteAt start (start.pc + 1) = some 0x00
    ∧ decode [0x00, 0x00] = .ok (.store 0 0x00, []) := ⟨.inl ⟨rfl, rfl⟩, rfl, rfl, by decide, by decide, rfl⟩

/-- A fetch that begins: it gives both bytes, blocks in the first read, blocks in the second. -/
theorem witness_FetchGoesThroughRouter : CpuTurn start [] ∧ start.cycle = .idle ∧ start.lifecycle = .running
    ∧ busRead start.pc start = some (0x00, start) ∧ busRead (start.pc + 1) start = some (0x00, start)
    ∧ decode [0x00, 0x00] = .ok (.store 0 0x00, [])
    ∧ busRead 0xFE00 start = none
    ∧ (∃ s1, busRead 0xFDFF start = some (0xFF, s1) ∧ busRead (0xFDFF + 1) s1 = none) :=
  ⟨.inl ⟨rfl, rfl⟩, rfl, rfl, by decide, by decide, rfl, by decide, ⟨_, rfl, rfl⟩⟩

/-- A fetch that waits: in its first read, with a token there and without; in its second read, with a token there and
without. -/
theorem witness_FetchGoesThroughRouter_waiting :
    (let s := { typed [['7']] with pc := 0xFE00, cycle := .fetchByte1, lifecycle := .paused };
      CpuTurn s [] ∧ s.cycle = .fetchByte1
        ∧ ∃ s1 s2, busRead s.pc { s with cycle := .idle, schedule := [] } = some (0x07, s1)
          ∧ busRead (s.pc + 1) s1 = some (0xFF, s2))
    ∧ decode [0x07, 0xFF] = .ok (.store 7 0xFF, [])
    ∧ busRead 0xFE00 { start with pc := 0xFE00 } = none
    ∧ (let s := { typed [['7']] with pc := 0xFDFF, cycle := .fetchByte2 0x03, lifecycle := .shutDown };
      CpuTurn s [] ∧ s.cycle = .fetchByte2 0x03
        ∧ ∃ s2, busRead (s.pc + 1) { s with cycle := .idle, schedule := [] } = some (0x07, s2))
    ∧ decode [0x03, 0x07] = .ok (.store 3 0x07, [])
    ∧ busRead (0xFDFF + 1) { start with pc := 0xFDFF } = none :=
  ⟨⟨.inl ⟨rfl, rfl⟩, rfl, _, _, rfl, rfl⟩, rfl, by decide, ⟨.inl ⟨rfl, rfl⟩, rfl, _, rfl⟩, rfl, by decide⟩

theorem witness_UnmappedFetchIsFatal :
    let s := { start with pc := 0x2000 }
    CpuTurn s [] ∧ s.cycle = .idle ∧ s.lifecycle = .running ∧ route s.config s.pc = .unmapped
      ∧ route s.config (s.pc + 1) = .unmapped := ⟨.inl ⟨rfl, rfl⟩, rfl, rfl, by decide, by decide⟩

theorem witness_SelfJumpChangesNothing :
    let s := { start with pc := 0x0044, mem := { rom := [(0x44, 0x50), (0x45, 0x44)] } }
    CpuTurn s [] ∧ s.cycle = .idle ∧ s.lifecycle = .running ∧ byteAt s s.pc = some 0x50
      ∧ byteAt s (s.pc + 1) = some 0x44 ∧ encode (.jump 0x044) = [0x50, 0x44] ∧ s.pc.toNat = (0x044#12).toNat
      ∧ s.pc.toNat % 2 = 0 := ⟨.inl ⟨rfl, rfl⟩, rfl, rfl, by decide, by decide, by decide, by decide, by decide⟩

/-- A state that meets the three invariants with the timer running and a cycle blocked, and that steps. -/
theorem witness_invariants :
    let s := { typed [['9']] with cycle := .handlerRead (.readKeyboard 7), lifecycle := .paused, regT := 3, timerActive := true }
    Inv s ∧ PcEven s ∧ ALow s ∧ ∃ t, step s = .next t := ⟨by decide, by decide, by decide, ⟨_, rfl⟩⟩

/-- An even `ROM_BASE`, which variant F has. -/
theorem witness_InvAtReset : Config.variantF.romBase.toNat % 2 = 0 := by decide

theorem witness_StepKeepsInv : Inv start ∧ ∃ t, step start = .next t := ⟨by decide, ⟨_, rfl⟩⟩

theorem witness_StepKeepsPcEven : PcEven { start with pc := 0xFFFE } ∧ ∃ t, step { start with pc := 0xFFFE } = .next t :=
  ⟨by decide, ⟨_, rfl⟩⟩

theorem witness_StepKeepsALow : ALow (pointA 0x0FFF) ∧ ∃ t, step (pointA 0x0FFF) = .next t := ⟨by decide, ⟨_, rfl⟩⟩

theorem witness_StepKeepsRom : ∃ t, step start = .next t := ⟨_, rfl⟩

theorem witness_DefaultLayoutReachesRomOnly : (7#4).toNat < 8 ∧ (pointA 0x0FFF).config.romBase = 0x0000
    ∧ ALow (pointA 0x0FFF) := by decide

end Sys2Proof.Tests
end

section
/-! PROOFS. What a turn of the timer clock or the host keeps, and all that a step that answers a next state can have done. -/

namespace Sys2Proof.Machine

open Sys2Proof.Safety

/-! ### The turns of the timer clock and the host -/

/-- A tick never raises `T` (R216). -/
theorem tick_regT_le (s : State) : (tick s).regT.toNat ≤ s.regT.toNat := by
  cases h : s.timerActive with
  | false => exact Nat.le_of_eq (congrArg (fun t : State => t.regT.toNat) (tick_of_idle h))
  | true => rw [tick_of_active h, BitVec.toNat_ofNat]; omega

/-- All that a lifecycle call can do: a transition of R227, which touches the lifecycle state and `TimerActive` alone, or a
diagnostic. -/
theorem lifecycleCall_cases (c : LifecycleCall) (s : State) :
    (∃ l, lifecycleAfter c s.lifecycle = some l
        ∧ lifecycleCall c s = { s with lifecycle := l, timerActive := s.timerActive && decide (l ≠ .shutDown) })
      ∨ (lifecycleAfter c s.lifecycle = none ∧ lifecycleCall c s = s.emit (.callIgnored c s.lifecycle)) := by
  unfold lifecycleCall
  cases h : lifecycleAfter c s.lifecycle with
  | some l => exact .inl ⟨l, rfl, rfl⟩
  | none => exact .inr ⟨rfl, rfl⟩

/-- No call leads back to `Stopped` (R227). -/
theorem lifecycleAfter_ne_stopped {c : LifecycleCall} {l l' : Lifecycle} (h : lifecycleAfter c l = some l') :
    l' ≠ .stopped := by
  rintro rfl
  cases c <;> cases l <;> cases h

/-- What a turn of the timer clock or the host keeps, and the one event that can change each of `T`, the lifecycle state and
the keyboard input (R36, R230). -/
structure EventFrame (e : Event) (s t : State) : Prop where
  regs : t.regs = s.regs
  pc : t.pc = s.pc
  regA : t.regA = s.regA
  flagM : t.flagM = s.flagM
  mem : t.mem = s.mem
  cycle : t.cycle = s.cycle
  config : t.config = s.config
  regT_le : t.regT.toNat ≤ s.regT.toNat
  regT : e ≠ .tick → t.regT = s.regT
  lifecycle : (∀ c, e ≠ .call c) → t.lifecycle = s.lifecycle
  keyboard : (∀ k, e ≠ .token k) → t.keyboard = s.keyboard

/-- An event that leaves everything but the lifecycle state, `TimerActive` and the diagnostics, and the lifecycle state too
unless it is a lifecycle call. -/
theorem EventFrame.of_kept {e : Event} {s t : State}
    (h : t = { s with lifecycle := t.lifecycle, timerActive := t.timerActive, diagnostics := t.diagnostics })
    (hl : (∀ c, e ≠ .call c) → t.lifecycle = s.lifecycle) : EventFrame e s t := by
  rw [h]
  exact ⟨rfl, rfl, rfl, rfl, rfl, rfl, rfl, Nat.le_refl _, fun _ => rfl, hl, fun _ => rfl⟩

/-- Every turn of the timer clock or the host that answers a next state stands in `EventFrame` to the state before. -/
theorem performEvent_frame {e : Event} {s t : State} (h : performEvent e s = .next t) : EventFrame e s t := by
  cases e with
  | tick =>
    cases h
    exact ⟨tick_regs s, tick_pc s, tick_regA s, tick_flagM s, tick_mem s, tick_cycle s, tick_config s, tick_regT_le s,
      fun ne => absurd rfl ne, fun _ => tick_lifecycle s, fun _ => tick_keyboard s⟩
  | call c =>
    cases h
    have notCall : (∀ c', Event.call c ≠ .call c') → (lifecycleCall c s).lifecycle = s.lifecycle :=
      fun ne => absurd rfl (ne c)
    rcases lifecycleCall_cases c s with ⟨l, _, e⟩ | ⟨_, e⟩
    · exact .of_kept (by rw [e]) notCall
    · exact .of_kept (by rw [e]; rfl) notCall
  | token k =>
    cases h
    exact ⟨rfl, rfl, rfl, rfl, rfl, rfl, rfl, Nat.le_refl _, fun _ => rfl, fun _ => rfl, fun ne => absurd rfl (ne k)⟩
  | render => cases h; exact .of_kept rfl fun _ => rfl
  | initialise c image => cases h

/-- Settles O42, from the frame of a turn of the timer clock or the host. -/
theorem otherAgentsKeepCpuState : Obligations.OtherAgentsKeepCpuState := by
  intro s e rest hs
  have hstep : step s = performEvent e { s with schedule := rest } := by rw [step, hs]
  refine ⟨fun t ht => ?_, ?_⟩
  · have hf := performEvent_frame (hstep.symm.trans ht)
    exact ⟨hf.regs, hf.pc, hf.regA, hf.flagM, hf.mem, hf.cycle, hf.config, hf.regT, hf.lifecycle, hf.keyboard⟩
  · rintro k rfl
    exact hstep

/-! ### Every step -/

/-- All that a step can have done where it answers a next state: the CPU waits, in the fetch or because no cycle may begin;
the CPU runs one instruction; or the timer clock or the host has its turn. -/
theorem step_next_cases {s t : State} (h : step s = .next t) :
    (∃ c ts ds rest, t = { s with cycle := c, keyboard := ts, diagnostics := ds, schedule := rest }
        ∧ (c = s.cycle ∨ (cycleOk c = true ∧ (s.cycle ≠ .idle ∨ s.lifecycle = .running))))
      ∨ (∃ i ts ds rest, CpuTurn s rest ∧ (s.cycle ≠ .idle ∨ s.lifecycle = .running)
          ∧ step s = exec i { s with cycle := .idle, keyboard := ts, diagnostics := ds, schedule := rest }
          ∧ ExecFrame i { s with cycle := .idle, keyboard := ts, diagnostics := ds, schedule := rest } t)
      ∨ (∃ e rest, s.schedule = .event e :: rest ∧ performEvent e { s with schedule := rest } = .next t) := by
  rcases step_cases s with ⟨rest, hturn, e⟩ | ⟨ev, rest, hs, e⟩
  · rcases cpuStep_cases { s with schedule := rest } with
      ⟨_, _, hw⟩ | ⟨hbegin, c, ts, ds, hc, hw⟩ | ⟨hbegin, i, ts, ds, hx⟩
    · rw [e, hw] at h; cases h
      exact .inl ⟨s.cycle, s.keyboard, s.diagnostics, rest, rfl, .inl rfl⟩
    · rw [e, hw] at h; cases h
      have hok : cycleOk c = true := by rcases hc with rfl | ⟨b, rfl⟩ <;> rfl
      exact .inl ⟨c, ts, ds, rest, rfl, .inr ⟨hok, hbegin⟩⟩
    · obtain ⟨t', ht', hf⟩ := exec_frame i { s with cycle := .idle, keyboard := ts, diagnostics := ds, schedule := rest }
      have hsx := e.trans hx
      cases (hsx.trans ht').symm.trans h
      exact .inr (.inl ⟨i, ts, ds, rest, hturn, hbegin, hsx, hf⟩)
  · exact .inr (.inr ⟨ev, rest, hs, e.symm.trans h⟩)

end Sys2Proof.Machine
end

section
/-! PROOFS. What every step keeps of the registers and of the machine's invariant (spec/10_state.md), and the state these
hold in first. -/

namespace Sys2Proof.Machine

open Sys2Proof.Safety

/-! ### `P` is even -/

/-- Every instruction keeps `P` even: it adds 2 or 4, or loads an even target (R25, R160). -/
theorem ExecFrame.keeps_pcEven {i : Instr} {s t : State} (hf : ExecFrame i s t) (hs : PcEven s) : PcEven t := by
  unfold PcEven at hs ⊢
  rcases hf.pc with h | h | h | h
  · rw [h]; exact hs
  · rw [h]; bv_omega
  · rw [h]; bv_omega
  · exact h

/-- Settles O52: the instructions keep `P` even, and no other turn writes `P`. -/
theorem stepKeepsPcEven : Obligations.StepKeepsPcEven := by
  intro s t hs h
  rcases step_next_cases h with ⟨_, _, _, _, rfl, _⟩ | ⟨_, _, _, _, _, _, _, hf⟩ | ⟨_, _, _, he⟩
  · exact hs
  · exact hf.keeps_pcEven hs
  · unfold PcEven; rw [(performEvent_frame he).pc]; exact hs

/-! ### `A` is low -/

/-- Every instruction keeps `A` low: the one that writes it loads a 12-bit value (R27, R150). -/
theorem ExecFrame.keeps_aLow {i : Instr} {s t : State} (hf : ExecFrame i s t) (hs : ALow s) : ALow t := by
  rcases hf.regA with h | h
  · unfold ALow; rw [h]; exact hs
  · exact h

/-- Settles O53: SET_A alone writes `A`, with a 12-bit value. -/
theorem stepKeepsALow : Obligations.StepKeepsALow := by
  intro s t hs h
  rcases step_next_cases h with ⟨_, _, _, _, rfl, _⟩ | ⟨_, _, _, _, _, _, _, hf⟩ | ⟨_, _, _, he⟩
  · exact hs
  · exact hf.keeps_aLow hs
  · unfold ALow; rw [(performEvent_frame he).regA]; exact hs

/-! ### The machine's invariant -/

/-- A cycle that is in progress or may begin says that the machine has been started (R218, R227). -/
theorem ne_stopped_of_inv {s : State} (hi : Inv s) (h : s.cycle ≠ .idle ∨ s.lifecycle = .running) :
    s.lifecycle ≠ .stopped := by
  obtain ⟨_, _, _, hstopped, _⟩ := hi
  intro hl
  rcases h with hc | hr
  · exact hc (hstopped hl).2
  · rw [hl] at hr; cases hr

/-- Every instruction of a started machine keeps the invariant. -/
theorem ExecFrame.keeps_inv {i : Instr} {s t : State} (hf : ExecFrame i s t) (hstart : s.lifecycle ≠ .stopped)
    (hi : Inv s) : Inv t := by
  obtain ⟨hmem, hpos, hdown, _, hcycle⟩ := hi
  have hc : cycleOk t.cycle = true := by
    rcases hf.cycle with h | ⟨h, _⟩
    · rw [h]; exact hcycle
    · exact h
  rcases hf.timer with ⟨hT, hA, hL⟩ | ⟨hT, hA, hL⟩ | ⟨bb, _, hT, hL, hA⟩
  · rw [Safety.Inv, hT, hA, hL]
    exact ⟨hf.memWf hmem, hpos, hdown, fun h => absurd h hstart, hc⟩
  · rw [Safety.Inv, hT, hA, hL]
    exact ⟨hf.memWf hmem, nofun, fun _ => rfl, nofun, hc⟩
  · rw [Safety.Inv, hT, hA, hL]
    exact ⟨hf.memWf hmem, by simp +contextual, by simp +contextual, fun h => absurd h hstart, hc⟩

/-- A tick keeps the invariant: the activity ends where `T` reaches 0 (R33, R216). -/
theorem tick_keeps_inv {s : State} (hi : Inv s) : Inv (tick s) := by
  cases h : s.timerActive with
  | false => rw [tick_of_idle h]; exact hi
  | true =>
    obtain ⟨hmem, _, hdown, hstopped, hcycle⟩ := hi
    rw [tick_of_active h]
    refine ⟨hmem, fun hA => ?_, fun hl => absurd h (by simp [hdown hl]),
      fun hl => absurd h (by simp [hstopped hl]), hcycle⟩
    have hT := of_decide_eq_true hA
    have := s.regT.isLt
    rw [BitVec.toNat_ofNat]; omega

/-- A lifecycle call keeps the invariant: it never starts the timer, it stops it on the way to `ShutDown`, and it never
leads back to `Stopped` (R217, R227). -/
theorem lifecycleCall_keeps_inv (c : LifecycleCall) {s : State} (hi : Inv s) : Inv (lifecycleCall c s) := by
  obtain ⟨hmem, hpos, hdown, hstopped, hcycle⟩ := hi
  rcases lifecycleCall_cases c s with ⟨l, hl, e⟩ | ⟨_, e⟩ <;> rw [e]
  · have hpos' : (s.timerActive && decide (l ≠ .shutDown)) = true → 0 < s.regT.toNat :=
      fun h => hpos (Bool.and_eq_true_iff.mp h).1
    exact ⟨hmem, hpos', fun h => by simp [show l = .shutDown from h],
      fun h => absurd h (lifecycleAfter_ne_stopped hl), hcycle⟩
  · exact ⟨hmem, hpos, hdown, hstopped, hcycle⟩

/-- Every turn of the timer clock or the host keeps the invariant. -/
theorem performEvent_keeps_inv {e : Event} {s t : State} (h : performEvent e s = .next t) (hi : Inv s) : Inv t := by
  cases e with
  | tick => cases h; exact tick_keeps_inv hi
  | call c => cases h; exact lifecycleCall_keeps_inv c hi
  | token k => cases h; exact hi
  | render => cases h; exact hi
  | initialise c image => cases h

/-- The CPU's turn may leave or enter a cycle that is in progress or may begin, in a read that can block. -/
theorem inv_withCycle {s : State} {c : Cycle} {ts : List Token} {ds : List Diagnostic} {rest : List Turn} (hi : Inv s)
    (hc : c = s.cycle ∨ (cycleOk c = true ∧ (s.cycle ≠ .idle ∨ s.lifecycle = .running))) :
    Inv { s with cycle := c, keyboard := ts, diagnostics := ds, schedule := rest } := by
  rcases hc with rfl | ⟨hok, hbegin⟩
  · exact hi
  · have hstart := ne_stopped_of_inv hi hbegin
    obtain ⟨hmem, hpos, hdown, _, _⟩ := hi
    exact ⟨hmem, hpos, hdown, fun h => absurd h hstart, hok⟩

/-- Settles O50, by the ways a step can go: the CPU waits, runs an instruction on a started machine, or another agent moves. -/
theorem stepKeepsInv : Obligations.StepKeepsInv := by
  intro s t hi h
  rcases step_next_cases h with ⟨_, _, _, _, rfl, hc⟩ | ⟨_, _, _, _, _, hbegin, _, hf⟩ | ⟨_, _, _, he⟩
  · exact inv_withCycle hi hc
  · have hstart : s.lifecycle ≠ .stopped := ne_stopped_of_inv hi hbegin
    exact hf.keeps_inv hstart (inv_withCycle hi (.inr ⟨rfl, hbegin⟩))
  · exact performEvent_keeps_inv he hi

/-! ### The state after reset -/

/-- Settles O51: the storage is in canonical form for every image, no timer activity and no cycle is there, and reset is the
case of variant F and the empty image. -/
theorem invAtReset : Obligations.InvAtReset := by
  have hinv : ∀ c image, Inv (State.initial c image) := fun c image =>
    ⟨initial_mem_wf c image, nofun, nofun, fun _ => ⟨rfl, rfl⟩, rfl⟩
  have hlow : ∀ c image, ALow (State.initial c image) := fun _ _ => Nat.zero_le _
  have heven : ∀ c image, c.romBase.toNat % 2 = 0 → PcEven (State.initial c image) := fun _ _ h => h
  refine ⟨?_, ?_, ?_, fun c image => ⟨hinv c image, hlow c image, heven c image⟩⟩ <;> rw [← reset_eq_initial]
  · exact hinv _ _
  · exact heven _ _ rfl
  · exact hlow _ _

/-- Settles O57: each value stands in `State.reset`, and the configuration of variant F is well-formed. -/
theorem resetValues : Obligations.ResetValues := by
  have hinit : initialiseMachine Config.variantF [] = .next State.reset := by
    rw [initialiseMachine, if_pos (by decide), reset_eq_initial]
  exact ⟨by decide, rfl, rfl, rfl, rfl, rfl, rfl, rfl, fun _ => rfl, fun _ => rfl, hinit⟩

/-! ### `T` -/

/-- Settles O38: among the instructions SET_T alone writes `T`, and of the other turns only a tick does, downwards. -/
theorem timerNeverRises : Obligations.TimerNeverRises := by
  intro s t h
  rcases step_next_cases h with ⟨_, _, _, _, rfl, _⟩ | ⟨i, ts, ds, rest, hturn, _, hx, hf⟩ | ⟨_, _, _, he⟩
  · exact .inl (Nat.le_refl _)
  · rcases hf.timer with ⟨hT, _, _⟩ | ⟨hT, _, _⟩ | ⟨bb, rfl, _, _, _⟩
    · exact .inl (Nat.le_of_eq (congrArg BitVec.toNat hT))
    · exact .inl (Nat.le_of_eq (congrArg BitVec.toNat hT))
    · exact .inr ⟨bb, ts, ds, rest, hturn, hx⟩
  · exact .inl (performEvent_frame he).regT_le

end Sys2Proof.Machine
end

section
/-! PROOFS. The bank flag `M` influences nothing but itself (spec/10_state.md R29, spec/20_memory.md R77): each operation
commutes with `withM`, and so the outcomes of a step agree but for `M`. -/

namespace Sys2Proof.Machine

open Sys2Proof.Safety

@[simp] theorem withM_pc (b : Bool) (s : State) : (withM b s).pc = s.pc := rfl
@[simp] theorem withM_regA (b : Bool) (s : State) : (withM b s).regA = s.regA := rfl
@[simp] theorem withM_timerActive (b : Bool) (s : State) : (withM b s).timerActive = s.timerActive := rfl
@[simp] theorem withM_lifecycle (b : Bool) (s : State) : (withM b s).lifecycle = s.lifecycle := rfl
@[simp] theorem withM_cycle (b : Bool) (s : State) : (withM b s).cycle = s.cycle := rfl
@[simp] theorem withM_keyboard (b : Bool) (s : State) : (withM b s).keyboard = s.keyboard := rfl
@[simp] theorem withM_config (b : Bool) (s : State) : (withM b s).config = s.config := rfl
@[simp] theorem withM_schedule (b : Bool) (s : State) : (withM b s).schedule = s.schedule := rfl
@[simp] theorem withM_reg (n : Fin 8) (b : Bool) (s : State) : (withM b s).reg n = s.reg n := rfl

/-- A keyboard read does not see `M`. -/
theorem keyboardRead_withM (b : Bool) (s : State) :
    keyboardRead (withM b s) = (keyboardRead s).map fun p => (p.1, withM b p.2) := by
  unfold keyboardRead
  rw [withM_keyboard]
  cases s.keyboard <;> rfl

/-- A bus read does not see `M` (R77). -/
theorem busRead_withM (a : Addr) (b : Bool) (s : State) :
    busRead a (withM b s) = (busRead a s).map fun p => (p.1, withM b p.2) := by
  unfold busRead
  rw [withM_config]
  cases route s.config a with
  | cell d i => rfl
  | keyboard => exact keyboardRead_withM b s
  | unmapped => rfl

/-- A routed write does not see `M` (R77). -/
theorem afterWrite_withM (a : Addr) (v : Byte) (b : Bool) (s : State) :
    afterWrite a v (withM b s) = withM b (afterWrite a v s) := by
  unfold afterWrite
  rw [withM_config]
  cases route s.config a <;> rfl

/-- The register-number check does not see `M`, so a handler behind it agrees where it agrees on every register. -/
theorem withReg_agreeButM {field : RegField} {f : BitVec 4} {b : Bool} {s : State}
    {k k' : Fin 8 → Host.Outcome State Fault Refusal} (hk : ∀ n, agreeButM (k n) (k' n)) :
    agreeButM (withReg field f s k) (withReg field f (withM b s) k') := by
  unfold withReg
  cases regOfField f with
  | none => rfl
  | some n => exact hk n

/-- The writes of one instruction do not see `M`. -/
theorem writeThenAdvance_agreeButM (b : Bool) (ws : List (Addr × Byte)) :
    ∀ s, agreeButM (writeThenAdvance ws s) (writeThenAdvance ws (withM b s)) := by
  induction ws with
  | nil => intro s; rfl
  | cons w ws ih =>
    intro s
    rw [writeThenAdvance_cons, writeThenAdvance_cons, afterWrite_withM, withM_config]
    cases writeRefused s.config w.1 with
    | true => rfl
    | false => exact ih _

/-- No instruction sees `M`: SWITCH_MEMORY writes it, and nothing else depends on it (R29, R153). -/
theorem exec_agreeButM (i : Instr) (b : Bool) (s : State) : agreeButM (exec i s) (exec i (withM b s)) := by
  cases i with
  | switchMemory | setA aaa | setT bb => rfl
  | store fX bb | readT fX | skipEqual fX fY | skipNotEqual fX fY => exact withReg_agreeButM fun _ => rfl
  | add fX fY fZ | sub fX fY fZ => exact withReg_agreeButM fun _ => withReg_agreeButM fun _ => rfl
  | write fX | convertToBase10 fX => exact withReg_agreeButM fun _ => writeThenAdvance_agreeButM b _ s
  | read fX =>
    refine withReg_agreeButM fun n => ?_
    rw [withM_regA, busRead_withM]
    cases busRead s.regA s <;> rfl
  | readKeyboard fX =>
    refine withReg_agreeButM fun n => ?_
    rw [keyboardRead_withM]
    cases keyboardRead s <;> rfl
  | jump aaa =>
    simp only [exec, execJump]
    split <;> rfl
  | convertByteToAscii fX fY =>
    refine withReg_agreeButM fun n => ?_
    rw [withM_reg]
    split <;> rfl
  | draw fX fY fZ =>
    refine withReg_agreeButM fun n => withReg_agreeButM fun k => ?_
    rw [withM_reg, withM_reg, withM_reg]
    split
    · rfl
    · split
      · rfl
      · split <;> rfl

/-- What the CPU agent's turn comes to once its action is known. -/
def CpuAction.outcome : CpuAction → Host.Outcome State Fault Refusal
  | .wait s => .next s
  | .run byte1 byte2 s => runBytes byte1 byte2 s
  | .resume i s => exec i s

theorem cpuStep_eq_outcome (s : State) : cpuStep s = (cpuAction s).outcome := by
  unfold cpuStep
  cases cpuAction s <;> rfl

/-- The second fetch read, and what follows it, does not see `M`. -/
theorem fetchSecond_agreeButM (byte1 : Byte) (b : Bool) (s : State) :
    agreeButM (fetchSecond byte1 s).outcome (fetchSecond byte1 (withM b s)).outcome := by
  unfold fetchSecond
  rw [withM_pc, busRead_withM]
  cases busRead (s.pc + 1) s with
  | none => rfl
  | some p =>
    obtain ⟨i, hi, _⟩ := runBytes_exec byte1 p.1 p.2
    simp only [Option.map_some, CpuAction.outcome, runBytes, hi]
    exact exec_agreeButM i b p.2

/-- The fetch, and what follows it, does not see `M`. -/
theorem fetchFirst_agreeButM (b : Bool) (s : State) :
    agreeButM (fetchFirst s).outcome (fetchFirst (withM b s)).outcome := by
  unfold fetchFirst
  rw [withM_pc, busRead_withM]
  cases busRead s.pc s with
  | none => rfl
  | some p => exact fetchSecond_agreeButM p.1 b p.2

/-- The CPU's turn does not see `M`. -/
theorem cpuStep_agreeButM (b : Bool) (s : State) : agreeButM (cpuStep s) (cpuStep (withM b s)) := by
  rw [cpuStep_eq_outcome, cpuStep_eq_outcome]
  unfold cpuAction
  rw [withM_cycle, withM_lifecycle]
  cases s.cycle with
  | idle =>
    dsimp only
    split
    · exact fetchFirst_agreeButM b s
    · rfl
  | fetchByte1 => exact fetchFirst_agreeButM b (s.blockIn .idle)
  | fetchByte2 byte1 => exact fetchSecond_agreeButM byte1 b (s.blockIn .idle)
  | handlerRead i => exact exec_agreeButM i b (s.blockIn .idle)

theorem tick_withM (b : Bool) (s : State) : tick (withM b s) = withM b (tick s) := by
  unfold tick
  rw [withM_timerActive]
  split <;> rfl

theorem lifecycleCall_withM (c : LifecycleCall) (b : Bool) (s : State) :
    lifecycleCall c (withM b s) = withM b (lifecycleCall c s) := by
  unfold lifecycleCall
  rw [withM_lifecycle]
  cases lifecycleAfter c s.lifecycle <;> rfl

/-- No turn of the timer clock or the host sees `M`. -/
theorem performEvent_agreeButM (e : Event) (b : Bool) (s : State) :
    agreeButM (performEvent e s) (performEvent e (withM b s)) := by
  cases e with
  | tick =>
    rw [performEvent, performEvent, tick_withM]
    rfl
  | call c =>
    rw [performEvent, performEvent, lifecycleCall_withM]
    rfl
  | token k | render | initialise c image => rfl

/-- Settles O55: neither the CPU's turn nor that of another agent sees `M`, and the schedule, which says whose turn it is,
does not hold it. -/
theorem bankFlagInfluencesNothing : Obligations.BankFlagInfluencesNothing := by
  intro s b
  unfold step
  rw [withM_schedule]
  cases s.schedule with
  | nil => exact cpuStep_agreeButM b s
  | cons turn rest =>
    cases turn with
    | cpu => exact cpuStep_agreeButM b { s with schedule := rest }
    | event e => exact performEvent_agreeButM e b { s with schedule := rest }

end Sys2Proof.Machine
end

section
/-! PROOFS. The devices behind the router (spec/20_memory.md): which device an address leads to, what MemRead and MemWrite do
there, and the ROM, which no step changes. -/

namespace Sys2Proof.Machine

open Sys2Proof.Safety

/-! ### The ROM is never written -/

/-- The bytes of the ROM are a function of its cells alone. -/
theorem read_rom_congr {m m' : Memory} (h : m'.rom = m.rom) (i : Nat) : m'.read .rom i = m.read .rom i := by
  simp only [Memory.read, Memory.cells, h]

/-- Settles O54: no instruction writes a ROM cell or the configuration, and no other turn writes the storage at all. -/
theorem stepKeepsRom : Obligations.StepKeepsRom := by
  intro s t h
  rcases step_next_cases h with ⟨_, _, _, _, rfl, _⟩ | ⟨_, _, _, _, _, _, _, hf⟩ | ⟨_, _, _, he⟩
  · exact ⟨rfl, fun _ => rfl⟩
  · exact ⟨hf.config, read_rom_congr hf.rom⟩
  · have hf := performEvent_frame he
    exact ⟨hf.config, fun i => congrArg (Memory.read · .rom i) hf.mem⟩

/-! ### The router's dispatch by address ranges -/

/-- The keyboard owns its one address (R52, R63). -/
theorem deviceOwns_keyboard_iff_atKeyboard (c : Config) (a : Addr) :
    deviceOwns c a .keyboard = true ↔ atKeyboard c a := by
  rw [deviceOwns_keyboard, atKeyboard, ← BitVec.toNat_inj]; omega

/-- The dispatch of `route_eq` in terms of the ranges that claims speak of (R53, R54). -/
theorem route_eq_ranges (c : Config) (a : Addr) :
    route c a =
      if inRom c a then .cell .rom (a.toNat - c.romBase.toNat)
      else if inRam c a then .cell .ram (a.toNat - (c.romBase.toNat + 4096))
      else if atKeyboard c a then .keyboard
      else if inDisplay c a then .cell .display (a.toNat - c.displayBase.toNat)
      else .unmapped := by
  rw [route_eq]
  simp only [deviceOwns_rom, deviceOwns_ram, deviceOwns_keyboard_iff_atKeyboard, deviceOwns_display]
  rfl

section
variable {c : Config} {a : Addr}

theorem route_of_inRom (h : inRom c a) : route c a = .cell .rom (a.toNat - c.romBase.toNat) := by
  rw [route_eq_ranges, if_pos h]

theorem route_of_inRam (hrom : ¬inRom c a) (h : inRam c a) :
    route c a = .cell .ram (a.toNat - (c.romBase.toNat + 4096)) := by
  rw [route_eq_ranges, if_neg hrom, if_pos h]

theorem route_of_atKeyboard (hrom : ¬inRom c a) (hram : ¬inRam c a) (h : atKeyboard c a) : route c a = .keyboard := by
  rw [route_eq_ranges, if_neg hrom, if_neg hram, if_pos h]

theorem route_of_inDisplay (hrom : ¬inRom c a) (hram : ¬inRam c a) (hkey : ¬atKeyboard c a) (h : inDisplay c a) :
    route c a = .cell .display (a.toNat - c.displayBase.toNat) := by
  rw [route_eq_ranges, if_neg hrom, if_neg hram, if_neg hkey, if_pos h]

theorem route_of_unowned (hrom : ¬inRom c a) (hram : ¬inRam c a) (hkey : ¬atKeyboard c a) (hdisp : ¬inDisplay c a) :
    route c a = .unmapped := by
  rw [route_eq_ranges, if_neg hrom, if_neg hram, if_neg hkey, if_neg hdisp]

end

/-- Settles O27, from the dispatch by ranges. -/
theorem routerFirstMatch : Obligations.RouterFirstMatch := fun _ _ =>
  ⟨route_of_inRom, route_of_inRam, route_of_atKeyboard, route_of_inDisplay, route_of_unowned⟩

/-- Settles O28: two devices in the list of a well-formed configuration have disjoint ranges. -/
theorem wellFormedConfigOneOwner : Obligations.WellFormedConfigOneOwner := by
  intro c a d e hwf hd he
  have hbounds := configWf_bounds hwf
  rw [deviceOwns_iff] at hd he
  cases d <;> cases e <;> simp only [deviceBase, deviceSize] at hd he
  case rom.rom | ram.ram | keyboard.keyboard | display.display => rfl
  all_goals omega

/-- In a well-formed configuration `KEYBOARD_BASE` leads to the keyboard (R69). -/
theorem route_keyboardBase {c : Config} (hwf : configWf c = true) : route c c.keyboardBase = .keyboard := by
  obtain ⟨_, _, hkey, _, _⟩ := configWf_bounds hwf
  exact route_of_atKeyboard (by omega) (by omega) rfl

/-- In a well-formed configuration `DISPLAY_BASE + i` leads to display cell `i` (R69). -/
theorem route_displayBase_add {c : Config} (hwf : configWf c = true) {i : Nat} (hi : i < 64) :
    route c (c.displayBase + BitVec.ofNat 16 i) = .cell .display i := by
  obtain ⟨_, hend, _, hdisp, hkey⟩ := configWf_bounds hwf
  have ha : (c.displayBase + BitVec.ofNat 16 i).toNat = c.displayBase.toNat + i := by
    rw [BitVec.toNat_add, BitVec.toNat_ofNat]; omega
  have hkb : ¬atKeyboard c (c.displayBase + BitVec.ofNat 16 i) := by
    rw [atKeyboard, ← BitVec.toNat_inj, ha]; omega
  rw [route_of_inDisplay (by omega) (by omega) hkb (by omega), ha, Nat.add_sub_cancel_left]

/-! ### The bus accesses, by what the address leads to -/

section
variable {a : Addr} {s : State}

theorem busRead_of_cell {d : Store} {i : Nat} (h : route s.config a = .cell d i) :
    busRead a s = some (s.mem.read d i, s) := by
  rw [busRead, h]

theorem busRead_of_keyboard (h : route s.config a = .keyboard) : busRead a s = keyboardRead s := by
  rw [busRead, h]

theorem busRead_of_unmapped (h : route s.config a = .unmapped) :
    busRead a s = some (0xFF, s.emit (.unmappedAccess .read a)) := by
  rw [busRead, h]

theorem busWrite_of_rom {i : Nat} (v : Byte) (h : route s.config a = .cell .rom i) :
    busWrite a v s = .error (.readOnlyDeviceViolation a) := by
  rw [busWrite, h]

theorem busWrite_of_keyboard (v : Byte) (h : route s.config a = .keyboard) :
    busWrite a v s = .error (.readOnlyDeviceViolation a) := by
  rw [busWrite, h]

/-- RAM and the display store the byte (R59, R62, R65). -/
theorem busWrite_of_cell {d : Store} {i : Nat} (v : Byte) (hd : d ≠ .rom) (h : route s.config a = .cell d i) :
    busWrite a v s = .ok { s with mem := s.mem.write d i v } := by
  rw [busWrite, h]
  cases d with
  | rom => exact absurd rfl hd
  | ram | display => rfl

theorem busWrite_of_unmapped (v : Byte) (h : route s.config a = .unmapped) :
    busWrite a v s = .ok (s.emit (.unmappedAccess .write a)) := by
  rw [busWrite, h]

theorem keyboardRead_of_nil (h : s.keyboard = []) : keyboardRead s = none := by
  rw [keyboardRead, h]

theorem keyboardRead_of_cons {t : Token} {ts : List Token} (h : s.keyboard = t :: ts) :
    keyboardRead s = some (t.byte, { s with keyboard := ts }) := by
  rw [keyboardRead, h]

end

/-- Settles O29: the dispatch at the address, and then what the device there answers. -/
theorem memReadByTarget : Obligations.MemReadByTarget := by
  intro a s
  refine ⟨fun h => busRead_of_cell (route_of_inRom h), fun hrom h => busRead_of_cell (route_of_inRam hrom h),
    fun hrom hram h => ?_, fun hrom hram hkey h => busRead_of_cell (route_of_inDisplay hrom hram hkey h),
    fun hrom hram hkey hdisp => busRead_of_unmapped (route_of_unowned hrom hram hkey hdisp)⟩
  rw [busRead_of_keyboard (route_of_atKeyboard hrom hram h)]
  exact ⟨fun _ _ => keyboardRead_of_cons, keyboardRead_of_nil⟩

/-- Settles O30: the dispatch at the address, and then what the device there does with the byte. -/
theorem memWriteByTarget : Obligations.MemWriteByTarget := fun _ v _ =>
  ⟨fun h => busWrite_of_rom v (route_of_inRom h),
    fun hrom h => busWrite_of_cell v (by decide) (route_of_inRam hrom h),
    fun hrom hram h => busWrite_of_keyboard v (route_of_atKeyboard hrom hram h),
    fun hrom hram hkey h => busWrite_of_cell v (by decide) (route_of_inDisplay hrom hram hkey h),
    fun hrom hram hkey hdisp => busWrite_of_unmapped v (route_of_unowned hrom hram hkey hdisp)⟩

/-- Settles O32: the two addresses lead to the keyboard and to the cell. -/
theorem directAccessEqualsRouted : Obligations.DirectAccessEqualsRouted := by
  intro s hwf
  refine ⟨busRead_of_keyboard (route_keyboardBase hwf), fun row col v hrow hcol => ?_⟩
  have hcell := route_displayBase_add hwf (i := row.toNat * 8 + col.toNat) (by omega)
  exact busWrite_of_cell v (by decide) hcell

/-- An instruction whose first write is at a ROM address ends there, with nothing written (R61, R73, R125). -/
theorem writeThenAdvance_of_rom {a : Addr} {s : State} {i : Nat} (v : Byte) (ws : List (Addr × Byte))
    (h : route s.config a = .cell .rom i) :
    writeThenAdvance ((a, v) :: ws) s = .next (fatalState (.readOnlyDeviceViolation a) s) := by
  rw [writeThenAdvance, busWrite_of_rom v h]
  rfl

/-- Settles O56: the ROM owns every address SET_A can load when it starts at 0, and it can be read and not written. -/
theorem defaultLayoutReachesRomOnly : Obligations.DefaultLayoutReachesRomOnly := by
  intro s fX hX hbase hlow
  have hroute : route s.config s.regA = .cell .rom s.regA.toNat := by
    have h0 : s.config.romBase.toNat = 0 := by rw [hbase]; rfl
    rw [route_of_inRom (by omega), h0, Nat.sub_zero]
  refine ⟨?_, ?_, ?_⟩
  · rw [exec, execRead, withReg_ok hX, busRead_of_cell hroute]
    rfl
  · rw [exec, execWrite, withReg_ok hX, writeThenAdvance_of_rom _ _ hroute]
  · rw [exec, execConvertToBase10, withReg_ok hX, digitWrites, writeThenAdvance_of_rom _ _ hroute]

/-! ### The storage -/

/-- Settles O31, from the law of a read after a write. -/
theorem storageReadAfterWrite : Obligations.StorageReadAfterWrite := by
  intro m d k v
  refine ⟨by rw [read_write, if_pos ⟨rfl, rfl⟩], fun e j hne => ?_⟩
  have hother : ¬(d = e ∧ k = j) := fun ⟨hd, hk⟩ => hne.elim (absurd hd.symm) (absurd hk.symm)
  rw [read_write, if_neg hother]

/-- What a machine that has just loaded an image has in its ROM: the image's byte, or the padding (R60). -/
theorem initial_read_rom (c : Config) (image : List Byte) {i : Nat} (hi : i < 4096) :
    (State.initial c image).mem.read .rom i = image.getD i 0x00 := by
  have h := romCells_get image 0 i (by omega)
  rwa [Nat.zero_add] at h

/-- Settles O33: the image is loaded as `romCells_get` says, and the rest stands in `State.initial`. -/
theorem initialiseLoadsImage : Obligations.InitialiseLoadsImage := by
  intro c image hwf
  have hnext : initialiseMachine c image = .next (State.initial c image) := if_pos hwf
  have hreg : ∀ n : Fin 8, (State.initial c image).regs[n.val] = 0x00 := fun n => Vector.getElem_replicate n.isLt
  have hdiag : (State.initial c image).diagnostics = romImageDiagnostics image := rfl
  have hsize : Store.size .rom = 4096 := rfl
  refine ⟨_, hnext, rfl, fun _ => initial_read_rom c image, fun _ => rfl, fun _ => rfl, fun h => ?_, fun h => ?_,
    fun h => ?_, hreg, rfl, rfl, rfl, rfl, rfl, rfl, rfl, rfl, rfl, rfl⟩ <;> rw [hdiag, romImageDiagnostics, hsize]
  · rw [if_pos h]
  · rw [if_neg (by omega), if_neg (by omega)]
  · rw [if_neg (by omega), if_pos h]

end Sys2Proof.Machine
end

section
/-! PROOFS. The byte of a keyboard token (spec/20_memory.md R64) and the rendered view of the display (R67). -/

namespace Sys2Proof.Machine

open Sys2Proof.Safety

/-! ### Keyboard tokens -/

/-- A text with no leading white space is parsed as it stands. -/
theorem tokenByte_of_not_blank {x : Char} (hx : isBlank x = false) (cs : List Char) :
    tokenByte (x :: cs) = coreByte 7 2 (x :: cs) := by
  rw [tokenByte, List.dropWhile_cons_of_neg (by simp [hx]), if_pos rfl]

/-- Behind `0x` stand the digits of at most seven (R64, log 5). -/
theorem tokenByte_0x (cs : List Char) : tokenByte ('0' :: 'x' :: cs) = digitsByte 7 cs :=
  tokenByte_of_not_blank (by decide) _

/-- Behind `0X` no digits have a stated byte (N14). -/
theorem tokenByte_0X (cs : List Char) : tokenByte ('0' :: 'X' :: cs) = digitsByte 0 cs :=
  tokenByte_of_not_blank (by decide) _

/-- Neither `x` nor `X` is a capital digit, so digits alone do not read as marked by `0x` or `0X`. -/
theorem hexChar_ne_x : ∀ v : Fin 16, hexChar v ≠ 'x' ∧ hexChar v ≠ 'X' := by decide

/-- A bare text of one or two capital digits gives its value (R64). -/
theorem tokenByte_map_hexChar {vs : List (Fin 16)} (hne : vs ≠ []) (hlen : vs.length ≤ 2) :
    tokenByte (vs.map hexChar) = some (BitVec.ofNat 8 (vs.foldl (fun value v => value * 16 + v.val) 0)) := by
  rw [← digitsByte_map_hexChar hne hlen]
  match vs with
  | [v] => simp [tokenByte_of_not_blank, coreByte]
  | v :: u :: us => simp [tokenByte_of_not_blank, coreByte, hexChar_ne_x]

theorem tokenByte_hexChar (v : Fin 16) : tokenByte [hexChar v] = some (BitVec.ofNat 8 v.val) := by
  simpa using tokenByte_map_hexChar (vs := [v]) (by simp) (by simp)

theorem tokenByte_hexChar_pair (v u : Fin 16) :
    tokenByte [hexChar v, hexChar u] = some (BitVec.ofNat 8 (v.val * 16 + u.val)) := by
  simpa using tokenByte_map_hexChar (vs := [v, u]) (by simp) (by simp)

/-- `0x` and one to seven capital digits give the value modulo 256 (R64, log 5). -/
theorem tokenByte_0x_map_hexChar {vs : List (Fin 16)} (hne : vs ≠ []) (hlen : vs.length ≤ 7) :
    tokenByte ('0' :: 'x' :: vs.map hexChar)
      = some (BitVec.ofNat 8 (vs.foldl (fun value v => value * 16 + v.val) 0 % 256)) := by
  rw [tokenByte_0x, digitsByte_map_hexChar hne hlen]
  exact congrArg some (BitVec.eq_of_toNat_eq (by simp))

/-- Of white space alone nothing is left once the leading white space is taken off. -/
theorem dropWhile_isBlank_eq_nil {cs : List Char} (h : ∀ c ∈ cs, isBlank c = true) : cs.dropWhile isBlank = [] := by
  induction cs with
  | nil => rfl
  | cons c cs ih =>
    obtain ⟨hc, hcs⟩ := List.forall_mem_cons.mp h
    rw [List.dropWhile_cons_of_pos hc]
    exact ih hcs

/-- White space alone is the empty text or not hexadecimal: 0x00 either way (R64). -/
theorem tokenByte_of_blank {cs : List Char} (h : ∀ c ∈ cs, isBlank c = true) : tokenByte cs = some 0x00 := by
  rw [tokenByte, dropWhile_isBlank_eq_nil h]
  split
  · rename_i hcs
    rw [← hcs]; rfl
  · rfl

/-- What is not hexadecimal and has no `0x` or `0X` before it gives 0x00 (R64). -/
theorem coreByte_of_alien {core : List Char} (h : core.any isAlien = true) (hlower : core.take 2 ≠ ['0', 'x'])
    (hupper : core.take 2 ≠ ['0', 'X']) (prefixed bare : Nat) : coreByte prefixed bare core = some 0x00 := by
  have hne : core ≠ [] := by rintro rfl; cases h
  rw [coreByte, if_neg hne, if_neg hlower, if_neg hupper, digitsByte_of_alien h]

/-- A text that is not hexadecimal gives 0x00, also behind white space (R64, N14). -/
theorem tokenByte_of_alien {cs : List Char} (h : cs.any isAlien = true)
    (hlower : (cs.dropWhile isBlank).take 2 ≠ ['0', 'x']) (hupper : (cs.dropWhile isBlank).take 2 ≠ ['0', 'X']) :
    tokenByte cs = some 0x00 := by
  have hcore := coreByte_of_alien (any_isAlien_dropWhile h) hlower hupper
  rw [tokenByte]
  split
  · rename_i hcs
    rw [← hcore 7 2, hcs]
  · exact hcore 0 0

/-- The characters that are digits under some reading of the letter case (R64). -/
theorem isHexChar_iff (c : Char) : isHexChar c = true ↔
    (0x30 ≤ c.toNat ∧ c.toNat ≤ 0x39) ∨ (0x41 ≤ c.toNat ∧ c.toNat ≤ 0x46) ∨ (0x61 ≤ c.toNat ∧ c.toNat ≤ 0x66) := by
  have hdigit : (hexDigit c).isSome = true ↔
      (48 ≤ c.toNat ∧ c.toNat ≤ 57) ∨ (65 ≤ c.toNat ∧ c.toNat ≤ 70) := by
    unfold hexDigit
    split
    · simp [*]
    · split <;> simp [*]
  simp only [isHexChar, isLowerHex, Bool.or_eq_true, decide_eq_true_eq, hdigit, or_assoc]

/-- The token of a byte's two digits gives the byte, so every byte can come of a token (D17). -/
theorem exists_token_byte (b : Byte) : ∃ t : Token, t.byte = b := by
  have hb := b.isLt
  refine ⟨⟨[hexChar ⟨b.toNat / 16, by omega⟩, hexChar ⟨b.toNat % 16, by omega⟩], 0⟩, ?_⟩
  rw [Token.byte, tokenByte_hexChar_pair, Option.getD_some]
  apply BitVec.eq_of_toNat_eq
  rw [BitVec.toNat_ofNat, Nat.mul_comm, Nat.div_add_mod, Nat.mod_eq_of_lt hb]

/-- Settles O34, form by form. -/
theorem keyboardTokenBytes : Obligations.KeyboardTokenBytes := by
  refine ⟨tokenByte_hexChar, tokenByte_hexChar_pair, fun _ => tokenByte_0x_map_hexChar, rfl,
    fun _ => tokenByte_of_blank, fun cs ⟨c, hc, hhex, hblank⟩ => ?_, isHexChar_iff, exists_token_byte⟩
  have halien : cs.any isAlien = true := List.any_eq_true.mpr ⟨c, hc, by simp [isAlien, hhex, hblank]⟩
  rw [tokenByte_0x, tokenByte_0X]
  exact ⟨digitsByte_of_alien halien 7, digitsByte_of_alien halien 0, tokenByte_of_alien halien⟩

/-! ### The rendered view -/

theorem renderRow_length (s : State) (r : Nat) : (renderRow s r).length = 9 := by simp [renderRow]

/-- Character `c` of a row shows the row's cell `c` (R66, R67). -/
theorem renderRow_cell (s : State) (r : Nat) {c : Nat} (hc : c < 8) :
    (renderRow s r)[c]? = some (renderByte (displayCell s r c)) := by
  rw [renderRow, List.getElem?_append_left (by simpa using hc)]
  simp [hc]

/-- A row ends with a newline (R67). -/
theorem renderRow_newline (s : State) (r : Nat) : (renderRow s r)[8]? = some '\n' := by simp [renderRow]

/-- Settles O35, from the characters of a row; a render request is the turn that changes nothing. -/
theorem renderShowsDisplay : Obligations.RenderShowsDisplay := by
  intro s
  refine ⟨fun r c _ hc => renderRow_cell s r hc, fun r => ⟨renderRow_length s r, renderRow_newline s r⟩, ?_,
    fun rest hs => by rw [step, hs]; rfl⟩
  simp [render, List.range_succ]

end Sys2Proof.Machine
end

section
/-! PROOFS. The encoding (spec/30_encoding.md): decoding and encoding are inverse up to the ignored bits, and the
register-number check comes before every handler. -/

namespace Sys2Proof

/-! ### Decoding what is encoded -/

/-- The decoder undoes the encoder, format by format: the fields put together are the fields taken out (R93, R95). The
pattern of SET_T stays in parts, for `fields_RI` to speak of. -/
theorem decodeWord_encodeWord (i : Instr) : decodeWord (encodeWord i) = .ok i := by
  cases i with
  | store fX bb | read fX | write fX | readKeyboard fX | setT bb | readT fX | convertToBase10 fX =>
    simp [encodeWord, decodeWord, opcodeOf_toNat, instrOf, fields_RI, -BitVec.reduceAppend]
  | add fX fY fZ | sub fX fY fZ | skipEqual fX fY | skipNotEqual fX fY | convertByteToAscii fX fY | draw fX fY fZ =>
    simp [encodeWord, decodeWord, opcodeOf_toNat, instrOf, fields_RRR]
  | jump aaa | setA aaa => simp [encodeWord, decodeWord, opcodeOf_toNat, instrOf, fields_A]
  | switchMemory => rfl

/-- Two instructions with one word are one instruction. -/
theorem encodeWord_injective {i j : Instr} (h : encodeWord i = encodeWord j) : i = j := by
  have hd : decodeWord (encodeWord i) = decodeWord (encodeWord j) := congrArg decodeWord h
  rw [decodeWord_encodeWord, decodeWord_encodeWord] at hd
  exact Except.ok.inj hd

/-- Settles O1: the two bytes give the word back, and the word its instruction. -/
theorem decodeOfEncode : Obligations.DecodeOfEncode := by
  intro i rest
  rw [encode, decode_bytesOf, decodeWord_encodeWord]

/-! ### The opcode of what is decoded -/

/-- The instruction that the opcode map answers has the opcode it was asked for (R95). -/
theorem opcode_of_instrOf {n : Nat} {w : Word} {i : Instr} (h : instrOf n w = .ok i) : i.opcode.toNat = n := by
  unfold instrOf at h
  split at h <;> cases h <;> rfl

/-- A decoded instruction has the opcode of its word (R91). -/
theorem opcode_of_decodeWord {w : Word} {i : Instr} (h : decodeWord w = .ok i) : i.opcode = opcodeOf w :=
  BitVec.eq_of_toNat_eq (opcode_of_instrOf h)

/-- The opcode is the high nibble of `byte1` (R71, R91). -/
theorem opcodeOf_wordOf (b1 b2 : Byte) : opcodeOf (wordOf b1 b2) = b1.extractLsb' 4 4 := by
  have := b1.isLt
  have := b2.isLt
  apply BitVec.eq_of_toNat_eq
  rw [opcodeOf_toNat, wordOf, toNat_append_eq, BitVec.extractLsb'_toNat, Nat.shiftRight_eq_div_pow]
  omega

/-- Settles O3: every word decodes, to an instruction of its own opcode. -/
theorem everyPairOfBytesDecodes : Obligations.EveryPairOfBytesDecodes := by
  refine ⟨fun b1 b2 rest => ?_, rfl, fun _ => rfl⟩
  obtain ⟨i, hi⟩ := decodeWord_ok (wordOf b1 b2)
  exact ⟨i, by simp [decode, hi], (opcode_of_decodeWord hi).trans (opcodeOf_wordOf b1 b2)⟩

/-! ### The ignored bits -/

/-- A word is its opcode, its `fX` and its low byte (R92). -/
theorem append_fields_RI (w : Word) : opcodeOf w ++ fieldX w ++ fieldBB w = w := by
  apply BitVec.eq_of_toNat_eq
  simp only [toNat_append_eq, opcodeOf_toNat, fieldX_toNat, fieldBB_toNat]
  omega

/-- A word is its opcode, its three register fields and bit 7, which is in none of them (R92). -/
theorem append_fields_RRR (w : Word) : opcodeOf w ++ fieldX w ++ w.extractLsb' 7 1 ++ fieldY w ++ fieldZ w = w := by
  apply BitVec.eq_of_toNat_eq
  simp only [toNat_append_eq, opcodeOf_toNat, fieldX_toNat, fieldY_toNat, fieldZ_toNat, BitVec.extractLsb'_toNat,
    Nat.shiftRight_eq_div_pow]
  omega

/-- A word is its opcode and its low twelve bits (R92). -/
theorem append_fields_A (w : Word) : opcodeOf w ++ fieldAAA w = w := by
  apply BitVec.eq_of_toNat_eq
  simp only [toNat_append_eq, opcodeOf_toNat, fieldAAA_toNat]
  omega

section
variable {w : Word} {o fX fZ mX mZ : BitVec 4} {bb mB : BitVec 8} {aaa mA : BitVec 12} (ho : opcodeOf w = o)
include ho

/-- Masking the fields of the patterns of RI, R and I masks the word (R93). -/
theorem append_eq_and_mask_RI (hX : fieldX w &&& mX = fX) (hB : fieldBB w &&& mB = bb) :
    o ++ fX ++ bb = w &&& (BitVec.allOnes 4 ++ mX ++ mB) := by
  conv =>
    rhs
    rw [← append_fields_RI w, BitVec.and_append, BitVec.and_append, BitVec.and_allOnes, ho, hX, hB]

/-- Masking the fields of the patterns of RRR and RR masks the word, bit 7 being ignored in both (R93). -/
theorem append_eq_and_mask_RRR (hZ : fieldZ w &&& mZ = fZ) :
    o ++ fieldX w ++ 0#1 ++ fieldY w ++ fZ =
      w &&& (BitVec.allOnes 4 ++ BitVec.allOnes 4 ++ 0#1 ++ BitVec.allOnes 3 ++ mZ) := by
  conv =>
    rhs
    rw [← append_fields_RRR w, BitVec.and_append, BitVec.and_append, BitVec.and_append, BitVec.and_append]
    rw [BitVec.and_allOnes, BitVec.and_allOnes, BitVec.and_allOnes, BitVec.and_zero, ho, hZ]

/-- Masking the field of the patterns of A and N masks the word (R93). -/
theorem append_eq_and_mask_A (hA : fieldAAA w &&& mA = aaa) : o ++ aaa = w &&& (BitVec.allOnes 4 ++ mA) := by
  conv =>
    rhs
    rw [← append_fields_A w, BitVec.and_append, BitVec.and_allOnes, ho, hA]

end

/-- Encoding what a word decodes to clears the word's ignored bits: every field of the word is kept, or cleared, as its
format says (R93, R99). -/
theorem encodeWord_of_decodeWord {w : Word} {i : Instr} (h : decodeWord w = .ok i) :
    encodeWord i = w &&& usedBits (opcodeOf w) := by
  have ho : opcodeOf w = i.opcode := (opcode_of_decodeWord h).symm
  rw [decodeWord, ho] at h
  rw [ho]
  cases i with
  | store fX bb => cases h; exact (append_eq_and_mask_RI ho BitVec.and_allOnes BitVec.and_allOnes :)
  | setT bb => cases h; exact (append_eq_and_mask_RI ho BitVec.and_zero BitVec.and_allOnes :)
  | read fX | write fX | readKeyboard fX | readT fX | convertToBase10 fX =>
    cases h; exact (append_eq_and_mask_RI ho BitVec.and_allOnes BitVec.and_zero :)
  | add fX fY fZ | sub fX fY fZ | draw fX fY fZ => cases h; exact (append_eq_and_mask_RRR ho BitVec.and_allOnes :)
  | skipEqual fX fY | skipNotEqual fX fY | convertByteToAscii fX fY =>
    cases h; exact (append_eq_and_mask_RRR ho BitVec.and_zero :)
  | jump aaa | setA aaa => cases h; exact (append_eq_and_mask_A ho BitVec.and_allOnes :)
  | switchMemory => exact (append_eq_and_mask_A ho BitVec.and_zero :)

/-- Settles O4: words that agree on the used bits decode to instructions of one encoding, so to one instruction. -/
theorem ignoredBitsHaveNoEffect : Obligations.IgnoredBitsHaveNoEffect := by
  refine ⟨fun w i => encodeWord_of_decodeWord, fun w w' ho hused => ?_⟩
  obtain ⟨i, hi⟩ := decodeWord_ok w
  obtain ⟨i', hi'⟩ := decodeWord_ok w'
  have heq : encodeWord i = encodeWord i' :=
    calc encodeWord i = w &&& usedBits (opcodeOf w) := encodeWord_of_decodeWord hi
      _ = w' &&& usedBits (opcodeOf w) := hused
      _ = w' &&& usedBits (opcodeOf w') := by rw [opcodeOf, opcodeOf, ho]
      _ = encodeWord i' := (encodeWord_of_decodeWord hi').symm
  rw [hi, hi', encodeWord_injective heq]

/-! ### Words of the spec -/

/-- Settles O2: the decoder computes each of the words of V-ENC. -/
theorem specWordsDecode : Obligations.SpecWordsDecode := ⟨rfl, rfl, rfl, rfl, rfl, rfl, rfl⟩

end Sys2Proof

namespace Sys2Proof.Machine

open Sys2Proof.Safety

/-! ### Register fields that name no register -/

/-- The register-number check of a field agrees with that field's part of `badField`: a field that names no register is
the one reported, and after a field that names one the handler reports what comes after it (R98). -/
theorem withReg_of_badField {field g : RegField} {f v : BitVec 4} {rest : Option (RegField × BitVec 4)} {s : State}
    {k : Fin 8 → Host.Outcome State Fault Refusal}
    (h : (if 8 ≤ f.toNat then some (field, f) else rest) = some (g, v))
    (hrest : rest = some (g, v) → ∀ n, k n = .next (fatalState (.invalidRegisterIndex g v) s)) :
    withReg field f s k = .next (fatalState (.invalidRegisterIndex g v) s) := by
  by_cases hf : 8 ≤ f.toNat
  · rw [if_pos hf] at h
    cases h
    exact withReg_bad hf _ s k
  · rw [if_neg hf] at h
    rw [withReg_ok (Nat.lt_of_not_le hf)]
    exact hrest h _

/-- Settles O24: the check of each field the format uses comes before the handler, `fX` before `fZ`. -/
theorem invalidRegisterIsFatal : Obligations.InvalidRegisterIsFatal := by
  intro i s g v h
  cases i with
  | add fX fY fZ | sub fX fY fZ | draw fX fY fZ =>
    exact withReg_of_badField h fun hZ _ => withReg_of_badField hZ nofun
  | store fX bb | read fX | write fX | readKeyboard fX | skipEqual fX fY | skipNotEqual fX fY | readT fX
  | convertToBase10 fX | convertByteToAscii fX fY => exact withReg_of_badField h nofun
  | jump aaa | switchMemory | setA aaa | setT bb => cases h

end Sys2Proof.Machine
end

section
/-! PROOFS. The execution cycle (spec/40_execution_cycle.md): when a cycle begins, its two fetch reads, what a blocked read
does at the CPU's turn, and where a cycle leaves `P`. -/

namespace Sys2Proof.Machine

open Sys2Proof.Safety

/-! ### The CPU's turn, by the cycle in progress -/

section
variable {s : State} {rest : List Turn} (hturn : CpuTurn s rest)
include hturn

/-- The CPU's turn as the outcome of the action it takes. -/
theorem step_eq_outcome : step s = (cpuAction { s with schedule := rest }).outcome :=
  (step_of_cpuTurn hturn).trans (cpuStep_eq_outcome _)

/-- A fetch that begins and one that waits in its first read are the same fetch (R121, R127, R229). -/
theorem step_eq_fetchFirst (hfetch : (s.cycle = .idle ∧ s.lifecycle = .running) ∨ s.cycle = .fetchByte1) :
    step s = (fetchFirst { s with cycle := .idle, schedule := rest }).outcome := by
  rw [step_eq_outcome hturn, cpuAction]
  rcases hfetch with ⟨hc, hl⟩ | hc
  · simp only [hc, if_pos hl]
  · simp only [hc]; rfl

/-- A fetch that waits in its second read goes on from there (R127, R229). -/
theorem step_eq_fetchSecond {b1 : Byte} (hc : s.cycle = .fetchByte2 b1) :
    step s = (fetchSecond b1 { s with cycle := .idle, schedule := rest }).outcome := by
  rw [step_eq_outcome hturn, cpuAction]
  simp only [hc]; rfl

/-- A handler that waits in its keyboard read is run again (R127, R229). -/
theorem step_eq_exec_of_handlerRead {i : Instr} (hc : s.cycle = .handlerRead i) :
    step s = exec i { s with cycle := .idle, schedule := rest } := by
  rw [step_eq_outcome hturn, cpuAction]
  simp only [hc]; rfl

end

/-- Settles O40: outside `Running` the CPU's action with no cycle in progress is to wait. -/
theorem noCycleUnlessRunning : Obligations.NoCycleUnlessRunning := by
  intro s rest hturn hc hl
  rw [step_eq_outcome hturn, cpuAction]
  simp only [hc, if_neg hl, CpuAction.outcome]

/-! ### The two fetch reads -/

/-- No bus read moves `P`. -/
theorem pc_of_busRead {a : Addr} {s s' : State} {v : Byte} (h : busRead a s = some (v, s')) : s'.pc = s.pc := by
  obtain ⟨ts, ds, rfl⟩ := busRead_some h
  rfl

/-- An address that holds a byte gives it to a bus read, with no side effect (R58). -/
theorem busRead_of_byteAt {a : Addr} {s : State} {b : Byte} (h : byteAt s a = some b) : busRead a s = some (b, s) := by
  unfold byteAt at h
  cases hr : route s.config a with
  | cell d i => rw [hr] at h; cases h; exact busRead_of_cell hr
  | keyboard | unmapped => rw [hr] at h; cases h

/-- The second read answers: the two bytes are decoded and the instruction runs on the state that the read leaves. -/
theorem fetchSecond_of_some {b1 b2 : Byte} {s s2 : State} {i : Instr} (h : busRead (s.pc + 1) s = some (b2, s2))
    (hdec : decode [b1, b2] = .ok (i, [])) : (fetchSecond b1 s).outcome = exec i s2 := by
  simp only [fetchSecond, h, CpuAction.outcome, runBytes, hdec]

/-- The second read blocks: the cycle waits in it, with `byte1` kept. -/
theorem fetchSecond_of_none (b1 : Byte) {s : State} (h : busRead (s.pc + 1) s = none) :
    (fetchSecond b1 s).outcome = .next { s with cycle := .fetchByte2 b1 } := by
  simp only [fetchSecond, h]
  rfl

/-- The first read answers: the second read follows, on the state that the first leaves. -/
theorem fetchFirst_of_some {b1 : Byte} {s s1 : State} (h : busRead s.pc s = some (b1, s1)) :
    fetchFirst s = fetchSecond b1 s1 := by
  simp only [fetchFirst, h]

/-- The first read blocks: the cycle waits in it. -/
theorem fetchFirst_of_none {s : State} (h : busRead s.pc s = none) :
    (fetchFirst s).outcome = .next { s with cycle := .fetchByte1 } := by
  simp only [fetchFirst, h]
  rfl

/-- Both reads answer: the instruction runs on the state that they leave. -/
theorem fetchFirst_of_some_some {b1 b2 : Byte} {s s1 s2 : State} {i : Instr} (h1 : busRead s.pc s = some (b1, s1))
    (h2 : busRead (s.pc + 1) s1 = some (b2, s2)) (hdec : decode [b1, b2] = .ok (i, [])) :
    (fetchFirst s).outcome = exec i s2 := by
  rw [fetchFirst_of_some h1]
  exact fetchSecond_of_some (by rw [pc_of_busRead h1, h2]) hdec

/-- Settles O47: the CPU's turn is the fetch, from the read it begins with or waits in. -/
theorem fetchGoesThroughRouter : Obligations.FetchGoesThroughRouter := by
  intro s rest hturn
  refine ⟨fun hfetch => ?_, fun b1 hc => ?_⟩
  · rw [step_eq_fetchFirst hturn hfetch]
    refine ⟨fun b1 s1 b2 s2 i => fetchFirst_of_some_some, fetchFirst_of_none, fun b1 s1 h1 h2 => ?_⟩
    rw [fetchFirst_of_some h1]
    exact fetchSecond_of_none b1 (by rw [pc_of_busRead h1, h2])
  · rw [step_eq_fetchSecond hturn hc]
    refine ⟨fun b2 s2 i => fetchSecond_of_some, fun h => ?_⟩
    rw [fetchSecond_of_none b1 h, ← hc]

/-- Settles O46: a stored byte is read with no side effect. -/
theorem stepRunsDecodedInstruction : Obligations.StepRunsDecodedInstruction := by
  intro s rest b1 b2 i hturn hc hl h1 h2 hdec
  rw [step_eq_fetchFirst hturn (.inl ⟨hc, hl⟩), ← hc]
  exact fetchFirst_of_some_some (busRead_of_byteAt h1) (busRead_of_byteAt h2) hdec

/-- Settles O48: both reads give 0xFF with a diagnostic, and the word `FFFF` is a DRAW whose `fX` names no register. -/
theorem unmappedFetchIsFatal : Obligations.UnmappedFetchIsFatal := by
  intro s rest hturn hc hl h1 h2
  have hdec : decode [0xFF, 0xFF] = .ok (.draw 15 7 15, []) := rfl
  rw [step_eq_fetchFirst hturn (.inl ⟨hc, hl⟩), ← hc]
  refine Eq.trans (fetchFirst_of_some_some (busRead_of_unmapped h1) (busRead_of_unmapped h2) hdec) ?_
  rw [invalidRegisterIsFatal (.draw 15 7 15) _ .fX 15 rfl]
  simp [State.emit]

/-! ### Blocked reads -/

section
variable {fX : BitVec 4} {s : State} (hX : fX.toNat < 8)
include hX

/-- READ loads what the bus read gives (R151). -/
theorem exec_read_of_some {v : Byte} {s' : State} (h : busRead s.regA s = some (v, s')) :
    exec (.read fX) s = .next ((s'.setReg ⟨fX.toNat, hX⟩ v).advance 2) := by
  simp only [exec, execRead, withReg_ok hX, h]

/-- READ blocks where the bus read does (R127, R151). -/
theorem exec_read_of_none (h : busRead s.regA s = none) :
    exec (.read fX) s = .next (s.blockIn (.handlerRead (.read fX))) := by
  simp only [exec, execRead, withReg_ok hX, h]

/-- READ_KEYBOARD loads what the keyboard gives (R170). -/
theorem exec_readKeyboard_of_some {v : Byte} {s' : State} (h : keyboardRead s = some (v, s')) :
    exec (.readKeyboard fX) s = .next ((s'.setReg ⟨fX.toNat, hX⟩ v).advance 2) := by
  simp only [exec, execReadKeyboard, withReg_ok hX, h]

/-- READ_KEYBOARD blocks while there is no token (R127, R170). -/
theorem exec_readKeyboard_of_none (h : keyboardRead s = none) :
    exec (.readKeyboard fX) s = .next (s.blockIn (.handlerRead (.readKeyboard fX))) := by
  simp only [exec, execReadKeyboard, withReg_ok hX, h]

end

/-- A bus read at the keyboard's address blocks while there is no token (R58, R63). -/
theorem busRead_of_keyboard_nil {a : Addr} {s : State} (hr : route s.config a = .keyboard) (hk : s.keyboard = []) :
    busRead a s = none :=
  (busRead_of_keyboard hr).trans (keyboardRead_of_nil hk)

/-- A bus read at the keyboard's address consumes the oldest token (R58, R63). -/
theorem busRead_of_keyboard_cons {a : Addr} {s : State} {t : Token} {ts : List Token}
    (hr : route s.config a = .keyboard) (hk : s.keyboard = t :: ts) :
    busRead a s = some (t.byte, { s with keyboard := ts }) :=
  (busRead_of_keyboard hr).trans (keyboardRead_of_cons hk)

/-- Settles O44: the read is tried again, finds no token, and leaves the cycle in the same wait. -/
theorem blockedReadWaits : Obligations.BlockedReadWaits := by
  intro s rest hturn hk
  refine ⟨fun fX hX hc => ?_, fun fX hX hc hr => ?_, fun hc hr => ?_, fun b1 hc hr => ?_⟩
  · rw [step_eq_exec_of_handlerRead hturn hc, hc]
    exact exec_readKeyboard_of_none hX (keyboardRead_of_nil hk)
  · rw [step_eq_exec_of_handlerRead hturn hc, hc]
    exact exec_read_of_none hX (busRead_of_keyboard_nil hr hk)
  · rw [step_eq_fetchFirst hturn (.inr hc), hc]
    exact fetchFirst_of_none (busRead_of_keyboard_nil hr hk)
  · rw [step_eq_fetchSecond hturn hc, hc]
    exact fetchSecond_of_none b1 (busRead_of_keyboard_nil hr hk)

/-- Settles O45: the read is tried again, consumes the token, and the cycle goes on as it would have. -/
theorem blockedReadCompletes : Obligations.BlockedReadCompletes := by
  intro s rest t ts hturn hk
  refine ⟨fun fX hX hc => ?_, fun fX hX hc hr => ?_, fun b2 i hc hr h2 hdec => ?_, fun b1 i hc hr hdec => ?_⟩
  · rw [step_eq_exec_of_handlerRead hturn hc]
    exact Eq.trans (exec_readKeyboard_of_some hX (keyboardRead_of_cons hk)) rfl
  · rw [step_eq_exec_of_handlerRead hturn hc]
    exact Eq.trans (exec_read_of_some hX (busRead_of_keyboard_cons hr hk)) rfl
  · rw [step_eq_fetchFirst hturn (.inr hc)]
    exact fetchFirst_of_some_some (busRead_of_keyboard_cons hr hk) (busRead_of_byteAt h2) hdec
  · rw [step_eq_fetchSecond hturn hc]
    exact fetchSecond_of_some (busRead_of_keyboard_cons hr hk) hdec

/-! ### Where a cycle leaves `P` -/

/-- How a cycle of an instruction at `p` that runs to its end leaves the machine, if it neither jumps nor skips: with `P`
advanced by 2, or shut down by a fatal condition that names `p` (R124, R125). -/
def AdvancedOrFatal (p : Addr) (t : State) : Prop :=
  t.pc = p + 2
    ∨ (t.pc = p ∧ t.lifecycle = .shutDown ∧ t.timerActive = false
        ∧ ∃ c, t.diagnostics.getLast? = some (.fatal c p))

theorem fatalState_advancedOrFatal (c : FatalCondition) (s : State) : AdvancedOrFatal s.pc (fatalState c s) :=
  .inr ⟨rfl, rfl, rfl, c, List.getLast?_concat⟩

/-- A routed write does not move `P`. -/
@[simp] theorem afterWrite_pc (a : Addr) (v : Byte) (s : State) : (afterWrite a v s).pc = s.pc := by
  unfold afterWrite; split <;> rfl

/-- The writes of one instruction end at its address, whichever of them is refused. -/
theorem writeThenAdvance_advancedOrFatal (ws : List (Addr × Byte)) :
    ∀ s, ∃ t, writeThenAdvance ws s = .next t ∧ AdvancedOrFatal s.pc t := by
  induction ws with
  | nil => exact fun s => ⟨_, rfl, .inl rfl⟩
  | cons w ws ih =>
    obtain ⟨a, v⟩ := w
    intro s
    rw [writeThenAdvance_cons]
    split
    · exact ⟨_, rfl, fatalState_advancedOrFatal _ s⟩
    · rw [← afterWrite_pc a v s]
      exact ih (afterWrite a v s)

/-- Jumps and skips apart, every instruction advances `P` by 2, is fatal, or blocks in its own keyboard read. -/
theorem exec_advancedOrFatal_or_blocked {i : Instr} (s : State) (hjump : ∀ aaa, i ≠ .jump aaa)
    (hequal : ∀ fX fY, i ≠ .skipEqual fX fY) (hnotEqual : ∀ fX fY, i ≠ .skipNotEqual fX fY) :
    ∃ t, exec i s = .next t ∧ (AdvancedOrFatal s.pc t ∨ t = s.blockIn (.handlerRead i)) := by
  have fatal : ∀ c, AdvancedOrFatal s.pc (fatalState c s) ∨ fatalState c s = s.blockIn (.handlerRead i) :=
    fun c => .inl (fatalState_advancedOrFatal c s)
  cases i with
  | switchMemory | setA aaa | setT bb => exact ⟨_, rfl, .inl (.inl rfl)⟩
  | store fX bb | readT fX => exact withReg_next fatal fun _ => ⟨_, rfl, .inl (.inl rfl)⟩
  | add fX fY fZ | sub fX fY fZ =>
    exact withReg_next fatal fun _ => withReg_next fatal fun _ => ⟨_, rfl, .inl (.inl rfl)⟩
  | write fX | convertToBase10 fX =>
    exact withReg_next fatal fun _ => (writeThenAdvance_advancedOrFatal _ s).imp fun _ => And.imp_right .inl
  | read fX =>
    refine withReg_next fatal fun _ => ?_
    cases h : busRead s.regA s with
    | none => exact ⟨_, rfl, .inr rfl⟩
    | some p => exact ⟨_, rfl, .inl (.inl (by rw [advance_pc, setReg_pc, pc_of_busRead h]))⟩
  | readKeyboard fX =>
    refine withReg_next fatal fun _ => ?_
    cases h : keyboardRead s with
    | none => exact ⟨_, rfl, .inr rfl⟩
    | some p =>
      obtain ⟨_, _, _, _, e⟩ := keyboardRead_some h
      exact ⟨_, rfl, .inl (.inl (by rw [advance_pc, setReg_pc, e]))⟩
  | convertByteToAscii fX fY =>
    refine withReg_next fatal fun _ => ?_
    split
    · exact ⟨_, rfl, fatal _⟩
    · exact ⟨_, rfl, .inl (.inl rfl)⟩
  | draw fX fY fZ =>
    refine withReg_next fatal fun _ => withReg_next fatal fun _ => ?_
    split
    · exact ⟨_, rfl, fatal _⟩
    · split
      · exact ⟨_, rfl, fatal _⟩
      · split
        · exact ⟨_, rfl, fatal _⟩
        · exact ⟨_, rfl, .inl (.inl rfl)⟩
  | jump aaa => exact absurd rfl (hjump aaa)
  | skipEqual fX fY => exact absurd rfl (hequal fX fY)
  | skipNotEqual fX fY => exact absurd rfl (hnotEqual fX fY)

/-- Settles O26: the state that exec answers is the one whose end is known, instruction by instruction. -/
theorem advanceByTwoOrFatalOrBlocked : Obligations.AdvanceByTwoOrFatalOrBlocked := by
  intro i s t ht hjump hequal hnotEqual
  obtain ⟨t', ht', hend⟩ := exec_advancedOrFatal_or_blocked s hjump hequal hnotEqual
  cases ht.symm.trans ht'
  exact or_assoc.mp hend

end Sys2Proof.Machine
end

section
/-! PROOFS. Register load and arithmetic (spec/41_load_arith.md): STORE, ADD and SUB on fields that name registers, and their
arithmetic modulo 256. -/

namespace Sys2Proof.Machine

open Sys2Proof.Safety

/-! ### Arithmetic modulo 256 -/

/-- The sum of two bytes is their exact sum reduced modulo 256 (R141, R143). -/
theorem addMod256_eq (x y : Byte) : addMod256 x y = BitVec.ofNat 8 ((x.toNat + y.toNat) % 256) := by
  apply BitVec.eq_of_toNat_eq
  rw [addMod256, BitVec.toNat_add, BitVec.toNat_ofNat, Nat.mod_mod]

/-- The difference of two bytes is their exact difference, or 256 more where that is negative (R142, R143). -/
theorem subMod256_eq (x y : Byte) :
    subMod256 x y = BitVec.ofNat 8 (if y.toNat ≤ x.toNat then x.toNat - y.toNat else x.toNat + 256 - y.toNat) := by
  have hx := x.isLt
  have hy := y.isLt
  apply BitVec.eq_of_toNat_eq
  rw [subMod256, BitVec.toNat_sub, BitVec.toNat_ofNat]
  split <;> omega

/-! ### The instructions on fields that name registers -/

section
variable {fX fZ : BitVec 4} (s : State) (hX : fX.toNat < 8)

/-- STORE puts its immediate in the register and advances (R140). -/
theorem exec_store (bb : BitVec 8) :
    exec (.store fX bb) s = .next ((s.setReg ⟨fX.toNat, hX⟩ bb).advance 2) := withReg_ok hX .fX s _

variable (hZ : fZ.toNat < 8) (fY : BitVec 3)

/-- ADD reads both sources from the state it begins in (R141). -/
theorem exec_add : exec (.add fX fY fZ) s = .next
    ((s.setReg ⟨fZ.toNat, hZ⟩ (addMod256 (s.reg ⟨fX.toNat, hX⟩) (s.reg (regOfY fY)))).advance 2) :=
  (withReg_ok hX .fX s _).trans (withReg_ok hZ .fZ s _)

/-- SUB reads both sources from the state it begins in (R142). -/
theorem exec_sub : exec (.sub fX fY fZ) s = .next
    ((s.setReg ⟨fZ.toNat, hZ⟩ (subMod256 (s.reg ⟨fX.toNat, hX⟩) (s.reg (regOfY fY)))).advance 2) :=
  (withReg_ok hX .fX s _).trans (withReg_ok hZ .fZ s _)

end

/-- Settles O5: the word's fields decode, and the register-number check lets the load through or is fatal. -/
theorem storeLoadsImmediate : Obligations.StoreLoadsImmediate := by
  intro s fX bb
  exact ⟨decodeWord_encodeWord (.store fX bb), fun hX => exec_store s hX bb, fun hX => withReg_bad hX .fX s _⟩

/-- Settles O6: the checks pass in the order `fX`, `fZ`, and the byte written is the exact sum modulo 256. -/
theorem addWritesSum : Obligations.AddWritesSum := by
  intro s fX n fY fZ
  refine ⟨?_, fun hX hZ => ?_, fun hX => withReg_bad hX .fX s _,
    fun hX hZ => (withReg_ok hX .fX s _).trans (withReg_bad hZ .fZ s _)⟩
  · simp [decodeWord, opcodeOf_toNat, instrOf, fields_RRR]
  · rw [exec_add s hX hZ, addMod256_eq]
    rfl

/-- Settles O7: the checks pass in the order `fX`, `fZ`, and the byte written is the exact difference, with the borrow. -/
theorem subWritesDifference : Obligations.SubWritesDifference := by
  intro s fX n fY fZ
  refine ⟨?_, fun hX hZ => ?_, fun hX => withReg_bad hX .fX s _,
    fun hX hZ => (withReg_ok hX .fX s _).trans (withReg_bad hZ .fZ s _)⟩
  · simp [decodeWord, opcodeOf_toNat, instrOf, fields_RRR]
  · rw [exec_sub s hX hZ, subMod256_eq]
    rfl

end Sys2Proof.Machine
end

section
/-! PROOFS. Memory access (spec/42_memory_access.md): SET_A, READ, WRITE and SWITCH_MEMORY, and what a routed write leaves at
each bus address. -/

namespace Sys2Proof.Machine

open Sys2Proof.Safety

/-! ### The words, with any ignored bits -/

theorem decodeWord_read (fX : BitVec 4) (n : BitVec 8) : decodeWord (0x3#4 ++ fX ++ n) = .ok (.read fX) := by
  obtain ⟨hop, hX, _⟩ := fields_RI 0x3#4 fX n
  exact (decodeWord_at hop).trans (congrArg (Except.ok ∘ Instr.read) hX)

theorem decodeWord_write (fX : BitVec 4) (n : BitVec 8) : decodeWord (0x4#4 ++ fX ++ n) = .ok (.write fX) := by
  obtain ⟨hop, hX, _⟩ := fields_RI 0x4#4 fX n
  exact (decodeWord_at hop).trans (congrArg (Except.ok ∘ Instr.write) hX)

theorem decodeWord_switchMemory (n : BitVec 12) : decodeWord (0x7#4 ++ n) = .ok .switchMemory :=
  decodeWord_at (fields_A 0x7#4 n).1

/-! ### READ -/

/-- Settles O9: READ loads what the bus read at `A` gives, and that is known by the target `A` leads to. -/
theorem readLoadsByte : Obligations.ReadLoadsByte := by
  intro s fX n
  refine ⟨decodeWord_read fX n, fun hX d k hr => ?_, fun hX t ts hr hk => ?_, fun hX hr hk => ?_, fun hX hr => ?_,
    fun hX => withReg_bad hX .fX s _⟩
  · exact exec_read_of_some hX (busRead_of_cell hr)
  · exact exec_read_of_some hX (busRead_of_keyboard_cons hr hk)
  · exact exec_read_of_none hX (busRead_of_keyboard_nil hr hk)
  · exact exec_read_of_some hX (busRead_of_unmapped hr)

/-! ### WRITE -/

section
variable {fX : BitVec 4} {s : State} (hX : fX.toNat < 8)
include hX

/-- WRITE goes on from the state that a bus write which is not refused leaves (R152). -/
theorem exec_write_of_ok {s' : State} (h : busWrite s.regA (s.reg ⟨fX.toNat, hX⟩) s = .ok s') :
    exec (.write fX) s = .next (s'.advance 2) := by
  simp only [exec, execWrite, withReg_ok hX, writeThenAdvance, h]

/-- WRITE ends with the fatal condition of a bus write that is refused, with nothing written (R125, R152). -/
theorem exec_write_of_error {c : FatalCondition} (h : busWrite s.regA (s.reg ⟨fX.toNat, hX⟩) s = .error c) :
    exec (.write fX) s = .next (fatalState c s) := by
  simp only [exec, execWrite, withReg_ok hX, writeThenAdvance, h, raise_eq_fatalState]

end

/-- Settles O10: WRITE ends as the bus write at `A` does, and that is known by the target `A` leads to. -/
theorem writeStoresRegister : Obligations.WriteStoresRegister := by
  intro s fX n
  refine ⟨decodeWord_write fX n, fun hX d k hd hr => ?_, fun hX hr => ?_, fun hX hr => ?_,
    fun hX => withReg_bad hX .fX s _⟩
  · exact exec_write_of_ok hX (busWrite_of_cell _ hd hr)
  · rcases hr with ⟨k, hr⟩ | hr
    · exact exec_write_of_error hX (busWrite_of_rom _ hr)
    · exact exec_write_of_error hX (busWrite_of_keyboard _ hr)
  · exact exec_write_of_ok hX (busWrite_of_unmapped _ hr)

/-! ### What a routed write leaves -/

@[simp] theorem afterWrite_regs (a : Addr) (v : Byte) (s : State) : (afterWrite a v s).regs = s.regs := by
  unfold afterWrite; split <;> rfl

@[simp] theorem afterWrite_regA (a : Addr) (v : Byte) (s : State) : (afterWrite a v s).regA = s.regA := by
  unfold afterWrite; split <;> rfl

@[simp] theorem byteAt_advance (delta : Addr) (s : State) (a : Addr) : byteAt (s.advance delta) a = byteAt s a := rfl

theorem byteAt_of_cell {s : State} {a : Addr} {d : Store} {i : Nat} (h : route s.config a = .cell d i) :
    byteAt s a = some (s.mem.read d i) := by
  rw [byteAt, h]

/-- Only an address that leads to a cell holds a byte (R32). -/
theorem route_of_byteAt {s : State} {a : Addr} {x : Byte} (h : byteAt s a = some x) :
    ∃ d i, route s.config a = .cell d i := by
  unfold byteAt at h
  cases hr : route s.config a with
  | cell d i => exact ⟨d, i, rfl⟩
  | keyboard | unmapped => rw [hr] at h; cases h

/-- The state after a write at an address that leads to a cell. -/
theorem afterWrite_of_cell {s : State} {a : Addr} {d : Store} {i : Nat} (v : Byte) (h : route s.config a = .cell d i) :
    afterWrite a v s = { s with mem := s.mem.write d i v } := by
  rw [afterWrite, h]

/-- An address that holds a byte holds the byte written there. -/
theorem byteAt_afterWrite_same {s : State} {a : Addr} {x : Byte} (v : Byte) (h : byteAt s a = some x) :
    byteAt (afterWrite a v s) a = some v := by
  obtain ⟨d, i, hr⟩ := route_of_byteAt h
  have hr' : route (afterWrite a v s).config a = .cell d i := by rw [afterWrite_config, hr]
  rw [byteAt_of_cell hr', afterWrite_of_cell v hr, read_write, if_pos ⟨rfl, rfl⟩]

/-- A write at one address leaves the byte at every other, since no two addresses lead to one cell. -/
theorem byteAt_afterWrite_other {s : State} {a b : Addr} (v : Byte) (hne : b ≠ a) :
    byteAt (afterWrite a v s) b = byteAt s b := by
  cases ha : route s.config a with
  | keyboard | unmapped => simp only [byteAt, afterWrite, ha]
  | cell d i =>
    rw [afterWrite_of_cell v ha]
    cases hb : route s.config b with
    | keyboard | unmapped => simp only [byteAt, hb]
    | cell e j =>
      have hother : ¬(d = e ∧ i = j) := fun ⟨hd, hi⟩ => hne (route_inj hb (hd ▸ hi ▸ ha))
      simp only [byteAt, hb, read_write, if_neg hother]

/-- Settles O11: the write at `A` is not refused, so the instruction leaves what the routed write leaves. -/
theorem writeChangesOneByte : Obligations.WriteChangesOneByte := by
  intro s fX hX x hw hx
  have hok : busWrite s.regA (s.reg ⟨fX.toNat, hX⟩) s = .ok (afterWrite s.regA (s.reg ⟨fX.toNat, hX⟩) s) := by
    rw [busWrite_eq, hw]
    rfl
  refine ⟨_, exec_write_of_ok hX hok, afterWrite_regs _ _ s, afterWrite_regA _ _ s, ?_, fun a hne => ?_⟩
  · rw [byteAt_advance, byteAt_afterWrite_same _ hx, State.reg]
  · rw [byteAt_advance, byteAt_afterWrite_other _ hne]

/-! ### SWITCH_MEMORY and SET_A -/

theorem exec_switchMemory (s : State) : exec .switchMemory s = .next (s.toggleM.advance 2) := rfl

/-- Two executions of SWITCH_MEMORY come to an advance by 4 alone (R153). -/
theorem toggleM_advance_twice (s : State) : (s.toggleM.advance 2).toggleM.advance 2 = s.advance 4 := by
  have hM : (!!s.flagM) = s.flagM := Bool.not_not _
  have hP : s.pc + 2 + 2 = s.pc + 4 := BitVec.add_assoc s.pc 2 2
  simp only [State.advance, State.toggleM, hM, hP]

/-- Settles O12: the handler inverts `M`, doing so twice restores it, and no instruction sees it. -/
theorem switchMemoryInvertsM : Obligations.SwitchMemoryInvertsM := by
  intro s n
  refine ⟨decodeWord_switchMemory n, exec_switchMemory s, ?_, fun i b => exec_agreeButM i b s⟩
  exact (exec_switchMemory (s.toggleM.advance 2)).trans (congrArg _ (toggleM_advance_twice s))

/-- The zero-extension of `aaa` is its value as an address (R94). -/
theorem zextAddress_eq (aaa : BitVec 12) : zextAddress aaa = BitVec.ofNat 16 aaa.toNat :=
  (BitVec.ofNat_toNat 16 aaa).symm

/-- Settles O8: the 12 bits zero-extended are the immediate's value, which 16 bits hold. -/
theorem setALoadsAddress : Obligations.SetALoadsAddress := by
  intro s aaa
  rw [← zextAddress_eq]
  exact ⟨decodeWord_encodeWord (.setA aaa), rfl, zextAddress_toNat aaa⟩

end Sys2Proof.Machine
end

section
/-! PROOFS. Control transfer (spec/43_control.md): the two ways of JUMP by the parity of its target, and the skip pair by the
comparison of two registers. -/

namespace Sys2Proof.Machine

open Sys2Proof.Safety

/-! ### JUMP -/

/-- JUMP to an even target sets `P` to it and adds nothing (R160). -/
theorem exec_jump_of_even {aaa : BitVec 12} (h : aaa.toNat % 2 = 0) (s : State) :
    exec (.jump aaa) s = .next { s with pc := zextAddress aaa } := by
  have hbit : ¬aaa.getLsbD 0 = true := fun hodd => by have := (aaa_odd_iff aaa).mp hodd; omega
  exact if_neg hbit

/-- JUMP to an odd target is fatal (R160). -/
theorem exec_jump_of_odd {aaa : BitVec 12} (h : aaa.toNat % 2 = 1) (s : State) :
    exec (.jump aaa) s = .next (fatalState (.oddJumpTarget aaa) s) := if_pos ((aaa_odd_iff aaa).mpr h)

/-- Settles O13: the parity of the target is its bit 0, and its zero-extension is its value. -/
theorem jumpSetsPc : Obligations.JumpSetsPc := by
  intro s aaa
  rw [← zextAddress_eq]
  exact ⟨decodeWord_encodeWord (.jump aaa), fun h => exec_jump_of_even h s, fun h => exec_jump_of_odd h s⟩

/-! ### The skip pair -/

theorem decodeWord_skipEqual (fX : BitVec 4) (n : BitVec 1) (fY : BitVec 3) (m : BitVec 4) :
    decodeWord (0x8#4 ++ fX ++ n ++ fY ++ m) = .ok (.skipEqual fX fY) := by
  obtain ⟨hop, hX, hY, _⟩ := fields_RRR 0x8#4 fX n fY m
  exact (decodeWord_at hop).trans (congrArg Except.ok (congr (congrArg Instr.skipEqual hX) hY))

theorem decodeWord_skipNotEqual (fX : BitVec 4) (n : BitVec 1) (fY : BitVec 3) (m : BitVec 4) :
    decodeWord (0x9#4 ++ fX ++ n ++ fY ++ m) = .ok (.skipNotEqual fX fY) := by
  obtain ⟨hop, hX, hY, _⟩ := fields_RRR 0x9#4 fX n fY m
  exact (decodeWord_at hop).trans (congrArg Except.ok (congr (congrArg Instr.skipNotEqual hX) hY))

theorem skipDelta_condEqual (x y : Byte) : skipDelta (condEqual x y) = if x = y then 4 else 2 := by
  by_cases h : x = y <;> simp [skipDelta, condEqual, h]

theorem skipDelta_condNotEqual (x y : Byte) : skipDelta (condNotEqual x y) = if x = y then 2 else 4 := by
  by_cases h : x = y <;> simp [skipDelta, condNotEqual, h]

/-- An advance by one of two deltas changes `P` alone, to one of two addresses. -/
theorem advance_ite (p : Prop) [Decidable p] (d e : Addr) (s : State) :
    s.advance (if p then d else e) = { s with pc := if p then s.pc + d else s.pc + e } := by
  split <;> rfl

section
variable {fX : BitVec 4} (hX : fX.toNat < 8) (fY : BitVec 3) (s : State)

/-- SKIP_EQUAL skips one instruction more if its registers are equal (R161). -/
theorem exec_skipEqual : exec (.skipEqual fX fY) s = .next
    (s.advance (if s.reg ⟨fX.toNat, hX⟩ = s.reg (regOfY fY) then 4 else 2)) :=
  (withReg_ok hX .fX s _).trans (by rw [skipDelta_condEqual])

/-- SKIP_NOT_EQUAL skips one instruction more unless its registers are equal (R162). -/
theorem exec_skipNotEqual : exec (.skipNotEqual fX fY) s = .next
    (s.advance (if s.reg ⟨fX.toNat, hX⟩ = s.reg (regOfY fY) then 2 else 4)) :=
  (withReg_ok hX .fX s _).trans (by rw [skipDelta_condNotEqual])

end

/-- Settles O14: past the register-number check, `P` advances by what the comparison selects. -/
theorem skipEqualSkips : Obligations.SkipEqualSkips := by
  intro s fX n fY m
  refine ⟨decodeWord_skipEqual fX n fY m, fun hX => ?_, fun hX => withReg_bad hX .fX s _⟩
  rw [exec_skipEqual hX, advance_ite]
  rfl

/-- Settles O15: past the register-number check, `P` advances by what the comparison selects. -/
theorem skipNotEqualSkips : Obligations.SkipNotEqualSkips := by
  intro s fX n fY m
  refine ⟨decodeWord_skipNotEqual fX n fY m, fun hX => ?_, fun hX => withReg_bad hX .fX s _⟩
  rw [exec_skipNotEqual hX, advance_ite]
  rfl

end Sys2Proof.Machine
end

section
/-! PROOFS. The devices and the timer (spec/44_io_timer.md): READ_KEYBOARD by whether a token is there, READ_T, and DRAW by
the first of its three operands that is out of range. -/

namespace Sys2Proof.Machine

open Sys2Proof.Safety

/-! ### The words, with any ignored bits -/

theorem decodeWord_readKeyboard (fX : BitVec 4) (n : BitVec 8) :
    decodeWord (0x6#4 ++ fX ++ n) = .ok (.readKeyboard fX) := by
  obtain ⟨hop, hX, _⟩ := fields_RI 0x6#4 fX n
  exact (decodeWord_at hop).trans (congrArg (Except.ok ∘ Instr.readKeyboard) hX)

theorem decodeWord_readT (fX : BitVec 4) (n : BitVec 8) : decodeWord (0xC#4 ++ fX ++ n) = .ok (.readT fX) := by
  obtain ⟨hop, hX, _⟩ := fields_RI 0xC#4 fX n
  exact (decodeWord_at hop).trans (congrArg (Except.ok ∘ Instr.readT) hX)

theorem decodeWord_draw (fX : BitVec 4) (n : BitVec 1) (fY : BitVec 3) (fZ : BitVec 4) :
    decodeWord (0xF#4 ++ fX ++ n ++ fY ++ fZ) = .ok (.draw fX fY fZ) := by
  obtain ⟨hop, hX, hY, hZ⟩ := fields_RRR 0xF#4 fX n fY fZ
  exact (decodeWord_at hop).trans (congrArg Except.ok (congr (congr (congrArg Instr.draw hX) hY) hZ))

/-! ### DRAW on fields that name registers -/

section
variable {fX fZ : BitVec 4} (hX : fX.toNat < 8) (hZ : fZ.toNat < 8) (fY : BitVec 3) (s : State)

/-- Past the register-number checks DRAW looks at the character, the row and the column, in that order (R173, D20). -/
theorem exec_draw : exec (.draw fX fY fZ) s =
    if 0x7F < (s.reg ⟨fX.toNat, hX⟩).toNat then
      .next (fatalState (.drawOperandOutOfRange .character (s.reg ⟨fX.toNat, hX⟩)) s)
    else if 8 ≤ (s.reg (regOfY fY)).toNat then
      .next (fatalState (.drawOperandOutOfRange .row (s.reg (regOfY fY))) s)
    else if 8 ≤ (s.reg ⟨fZ.toNat, hZ⟩).toNat then
      .next (fatalState (.drawOperandOutOfRange .column (s.reg ⟨fZ.toNat, hZ⟩)) s)
    else .next ((drawCell (cellOffset (s.reg (regOfY fY)) (s.reg ⟨fZ.toNat, hZ⟩)) (s.reg ⟨fX.toNat, hX⟩) s).advance 2) :=
  (withReg_ok hX .fX s _).trans (withReg_ok hZ .fZ s _)

end

/-- Settles O20: each clause is one branch of the handler's chain of checks, and the register-number checks come first. -/
theorem drawWritesCell : Obligations.DrawWritesCell := by
  intro s fX n fY fZ
  refine ⟨decodeWord_draw fX n fY fZ, ?_, fun hX => withReg_bad hX .fX s _,
    fun hX hZ => (withReg_ok hX .fX s _).trans (withReg_bad hZ .fZ s _)⟩
  rintro hX hZ _ _ _ rfl rfl rfl
  rw [exec_draw hX hZ]
  refine ⟨fun hc hrow hcol => ?inRange, fun hc => ?character, fun hc hrow => ?row, fun hc hrow hcol => ?column⟩
  case inRange =>
    exact (if_neg (Nat.not_lt.mpr hc)).trans
      ((if_neg (Nat.not_le.mpr hrow)).trans (if_neg (Nat.not_le.mpr hcol)))
  case character => exact if_pos hc
  case row => exact (if_neg (Nat.not_lt.mpr hc)).trans (if_pos hrow)
  case column => exact (if_neg (Nat.not_lt.mpr hc)).trans ((if_neg (Nat.not_le.mpr hrow)).trans (if_pos hcol))

/-! ### READ_KEYBOARD and READ_T -/

/-- Settles O16: what the keyboard gives is loaded, and where it gives nothing the cycle blocks. -/
theorem readKeyboardLoadsToken : Obligations.ReadKeyboardLoadsToken := by
  intro s fX n
  refine ⟨decodeWord_readKeyboard fX n, fun hX t ts hk => ?_, fun hX hk => ?_, fun hX => withReg_bad hX .fX s _⟩
  · exact exec_readKeyboard_of_some hX (keyboardRead_of_cons hk)
  · exact exec_readKeyboard_of_none hX (keyboardRead_of_nil hk)

/-- READ_T puts the timer register's value in the register and advances (R172). -/
theorem exec_readT {fX : BitVec 4} (hX : fX.toNat < 8) (s : State) :
    exec (.readT fX) s = .next ((s.setReg ⟨fX.toNat, hX⟩ s.regT).advance 2) := withReg_ok hX .fX s _

/-- Settles O19: the register-number check lets the copy through or is fatal. -/
theorem readTCopiesTimer : Obligations.ReadTCopiesTimer := by
  intro s fX n
  exact ⟨decodeWord_readT fX n, fun hX => exec_readT hX s, fun hX => withReg_bad hX .fX s _⟩

end Sys2Proof.Machine
end

section
/-! PROOFS. Conversion (spec/45_convert.md): CONVERT_TO_BASE_10 by the first of its three routed writes that is refused, what
it leaves at each bus address if none is, and CONVERT_BYTE_TO_ASCII by the range of its source. -/

namespace Sys2Proof.Machine

open Sys2Proof.Safety

/-! ### The words, with any ignored bits -/

theorem decodeWord_convertToBase10 (fX : BitVec 4) (n : BitVec 8) :
    decodeWord (0xD#4 ++ fX ++ n) = .ok (.convertToBase10 fX) := by
  obtain ⟨hop, hX, _⟩ := fields_RI 0xD#4 fX n
  exact (decodeWord_at hop).trans (congrArg (Except.ok ∘ Instr.convertToBase10) hX)

theorem decodeWord_convertByteToAscii (fX : BitVec 4) (n : BitVec 1) (fY : BitVec 3) (m : BitVec 4) :
    decodeWord (0xE#4 ++ fX ++ n ++ fY ++ m) = .ok (.convertByteToAscii fX fY) := by
  obtain ⟨hop, hX, hY, _⟩ := fields_RRR 0xE#4 fX n fY m
  exact (decodeWord_at hop).trans (congrArg Except.ok (congr (congrArg Instr.convertByteToAscii hX) hY))

/-! ### CONVERT_TO_BASE_10 -/

@[simp] theorem afterWrite_regT (a : Addr) (v : Byte) (s : State) : (afterWrite a v s).regT = s.regT := by
  unfold afterWrite; split <;> rfl

@[simp] theorem afterWrite_flagM (a : Addr) (v : Byte) (s : State) : (afterWrite a v s).flagM = s.flagM := by
  unfold afterWrite; split <;> rfl

/-- On a field that names a register CONVERT_TO_BASE_10 issues its three writes in order, from the states `s`, `s1` and
`s2`, and ends at the first that is refused (R180, D13). -/
theorem exec_convertToBase10 {fX : BitVec 4} (hX : fX.toNat < 8) {s s1 s2 s3 : State}
    (h1 : s1 = afterWrite s.regA (hundredsDigit (s.reg ⟨fX.toNat, hX⟩)) s)
    (h2 : s2 = afterWrite (s.regA + 1) (tensDigit (s.reg ⟨fX.toNat, hX⟩)) s1)
    (h3 : s3 = afterWrite (s.regA + 2) (onesDigit (s.reg ⟨fX.toNat, hX⟩)) s2) :
    exec (.convertToBase10 fX) s =
      if writeRefused s.config s.regA then .next (fatalState (.readOnlyDeviceViolation s.regA) s)
      else if writeRefused s.config (s.regA + 1) then .next (fatalState (.readOnlyDeviceViolation (s.regA + 1)) s1)
      else if writeRefused s.config (s.regA + 2) then .next (fatalState (.readOnlyDeviceViolation (s.regA + 2)) s2)
      else .next (s3.advance 2) := by
  have hc1 : s1.config = s.config := by rw [h1, afterWrite_config]
  have hc2 : s2.config = s.config := by rw [h2, afterWrite_config, hc1]
  refine (withReg_ok hX .fX s _).trans ?_
  rw [digitWrites, writeThenAdvance_cons, ← h1, writeThenAdvance_cons, hc1, ← h2, writeThenAdvance_cons, hc2, ← h3]
  rfl

/-- Settles O21: each clause is one branch of the chain of writes, and the register-number check comes first. -/
theorem convertToBase10WritesDigits : Obligations.ConvertToBase10WritesDigits := by
  intro s fX n
  refine ⟨decodeWord_convertToBase10 fX n, ?_, fun hX => withReg_bad hX .fX s _⟩
  rintro hX _ _ _ s1 s2 s3 rfl rfl rfl h1 h2 h3
  have hpc : s3.pc = s.pc := by rw [h3, h2, h1, afterWrite_pc, afterWrite_pc, afterWrite_pc]
  rw [exec_convertToBase10 hX h1 h2 h3]
  refine ⟨fun hw0 hw1 hw2 => ?noneRefused, fun hw0 => ?firstRefused, fun hw0 hw1 => ?secondRefused,
    fun hw0 hw1 hw2 => ?thirdRefused⟩
  case noneRefused =>
    rw [hw0, hw1, hw2, ← hpc]
    rfl
  case firstRefused => exact if_pos hw0
  case secondRefused => rw [hw0, hw1]; rfl
  case thirdRefused => rw [hw0, hw1, hw2]; rfl

/-- Settles O22: no write is refused, so the instruction leaves what the three routed writes leave, and these are at three
different addresses. -/
theorem convertToBase10ChangesThreeBytes : Obligations.ConvertToBase10ChangesThreeBytes := by
  intro s fX hX hw0 hw1 hw2
  have h01 : s.regA ≠ s.regA + 1 := by bv_omega
  have h02 : s.regA ≠ s.regA + 2 := by bv_omega
  have h12 : s.regA + 1 ≠ s.regA + 2 := by bv_omega
  have hexec := exec_convertToBase10 hX (s := s) rfl rfl rfl
  simp only [hw0, hw1, hw2, Bool.false_eq_true, if_false] at hexec
  refine ⟨_, hexec, ?pc, ?regs, ?regA, ?regT, ?flagM, fun x hx => ?hundreds, fun x hx => ?tens, fun x hx => ?ones,
    fun a hne0 hne1 hne2 => ?frame⟩
  case pc | regs | regA | regT | flagM => simp
  case hundreds =>
    rw [byteAt_advance, byteAt_afterWrite_other _ h02, byteAt_afterWrite_other _ h01, byteAt_afterWrite_same _ hx]
    rfl
  case tens =>
    rw [← byteAt_afterWrite_other _ h01.symm] at hx
    rw [byteAt_advance, byteAt_afterWrite_other _ h12, byteAt_afterWrite_same _ hx]
    rfl
  case ones =>
    rw [← byteAt_afterWrite_other _ h02.symm, ← byteAt_afterWrite_other _ h12.symm] at hx
    rw [byteAt_advance, byteAt_afterWrite_same _ hx]
    rfl
  case frame =>
    rw [byteAt_advance, byteAt_afterWrite_other _ hne2, byteAt_afterWrite_other _ hne1, byteAt_afterWrite_other _ hne0]

/-! ### CONVERT_BYTE_TO_ASCII -/

/-- The codes of `0` to `9` are 0x30 to 0x39 (R182, G1). -/
theorem asciiDigit_of_le_nine {v : Byte} (h : v.toNat ≤ 9) : asciiDigit v = BitVec.ofNat 8 (0x30 + v.toNat) := by
  rw [asciiDigit, if_pos (Nat.lt_succ_of_le h)]
  bv_omega

/-- The codes of `A` to `F` are 0x41 to 0x46 (R182). -/
theorem asciiDigit_of_ten_le {v : Byte} (h : 10 ≤ v.toNat) : asciiDigit v = BitVec.ofNat 8 (0x41 + (v.toNat - 10)) := by
  rw [asciiDigit, if_neg (Nat.not_lt.mpr h)]
  bv_omega

/-- On a field that names a register CONVERT_BYTE_TO_ASCII looks at the range of its source (R181). -/
theorem exec_convertByteToAscii {fX : BitVec 4} (hX : fX.toNat < 8) (fY : BitVec 3) (s : State) :
    exec (.convertByteToAscii fX fY) s =
      if 0x0F < (s.reg ⟨fX.toNat, hX⟩).toNat then
        .next (fatalState (.asciiOperandOutOfRange (s.reg ⟨fX.toNat, hX⟩)) s)
      else .next ((s.setReg (regOfY fY) (asciiDigit (s.reg ⟨fX.toNat, hX⟩))).advance 2) := withReg_ok hX .fX s _

/-- Settles O23: the range of the source decides between the fatal condition and the two codes. -/
theorem convertByteToAsciiWritesDigit : Obligations.ConvertByteToAsciiWritesDigit := by
  intro s fX n fY m
  refine ⟨decodeWord_convertByteToAscii fX n fY m, ?_, fun hX => withReg_bad hX .fX s _⟩
  rintro hX _ rfl
  rw [exec_convertByteToAscii hX]
  refine ⟨fun hle => ?digit, fun hge hle => ?letter, fun hgt => if_pos hgt⟩
  case digit =>
    rw [← asciiDigit_of_le_nine hle]
    exact if_neg (Nat.not_lt.mpr (Nat.le_trans hle (by decide)))
  case letter =>
    rw [← asciiDigit_of_ten_le hge]
    exact if_neg (Nat.not_lt.mpr hle)

end Sys2Proof.Machine
end

section
/-! PROOFS. The timer clock (spec/60_exceptions.md R215 to R218): SET_T before and after a shutdown, one tick, and a run of
ticks. -/

namespace Sys2Proof.Machine

/-- The turn of the timer clock or the host is a step of the state with the turn taken off the schedule (R230). -/
theorem step_of_event {s : State} {e : Event} {rest : List Turn} (h : s.schedule = .event e :: rest) :
    step s = performEvent e { s with schedule := rest } := by
  simp only [step, h]

/-! ### SET_T -/

theorem decodeWord_setT (n : BitVec 4) (bb : BitVec 8) : decodeWord (0xB#4 ++ n ++ bb) = .ok (.setT bb) := by
  obtain ⟨hop, _, hbb⟩ := fields_RI 0xB#4 n bb
  exact (decodeWord_at hop).trans (congrArg (Except.ok ∘ Instr.setT) hbb)

/-- SET_T hands the immediate to the timer clock and advances (R171). -/
theorem exec_setT (bb : BitVec 8) (s : State) : exec (.setT bb) s = .next ((setTimerValue bb s).advance 2) := rfl

/-- In a machine that is not shut down the activity runs exactly if the value is above 0 (R215). -/
theorem setTimerValue_of_ne_shutDown (bb : Byte) {s : State} (h : s.lifecycle ≠ .shutDown) :
    setTimerValue bb s = { s with regT := bb, timerActive := decide (0 < bb.toNat) } := by
  simp [setTimerValue, h]

/-- After a shutdown no value starts the activity (log 6). -/
theorem setTimerValue_of_shutDown (bb : Byte) {s : State} (h : s.lifecycle = .shutDown) :
    setTimerValue bb s = { s with regT := bb, timerActive := false } := by
  simp [setTimerValue, h]

/-- Settles O17: the timer clock of a machine that is not shut down takes the value. -/
theorem setTLoadsTimer : Obligations.SetTLoadsTimer := by
  intro s n bb
  refine ⟨decodeWord_setT n bb, fun hl => ?_⟩
  rw [exec_setT, setTimerValue_of_ne_shutDown bb hl]
  rfl

/-- Settles O18: after a shutdown the timer clock keeps the value alone. -/
theorem setTAfterShutdown : Obligations.SetTAfterShutdown := by
  intro s bb hl
  rw [exec_setT, setTimerValue_of_shutDown bb hl]
  rfl

/-! ### Ticks -/

/-- The timer clock's turn with the activity: `T` goes down by one and stops at 0, where the activity ends (R216). -/
theorem step_of_tick_active {s : State} {rest : List Turn} (hs : s.schedule = .event .tick :: rest)
    (hA : s.timerActive = true) :
    step s = .next { s with
      regT := BitVec.ofNat 8 (s.regT.toNat - 1), timerActive := decide (1 < s.regT.toNat), schedule := rest } :=
  (step_of_event hs).trans (congrArg Host.Outcome.next (tick_of_active hA))

/-- Settles O36: a tick counts an active timer down, stops one that stands at 0, and leaves an idle one. -/
theorem tickDecrementsTimer : Obligations.TickDecrementsTimer := by
  intro s rest hs
  refine ⟨fun hA hT => ?counts, fun hA hT => ?stops, fun hA => ?idle⟩
  case counts =>
    have hgoesOn : decide (1 < s.regT.toNat) = decide (s.regT.toNat ≠ 1) := decide_eq_decide.mpr (by omega)
    rw [step_of_tick_active hs hA, hgoesOn]
  case stops =>
    have hzero : s.regT = 0 := BitVec.eq_of_toNat_eq hT
    rw [step_of_tick_active hs hA, hzero]
    rfl
  case idle => exact (step_of_event hs).trans (congrArg Host.Outcome.next (tick_of_idle hA))

/-- `k` ticks of a timer that is active exactly while `T` is above 0, with `k` at most `T`. Every tick keeps that relation,
the last one, which ends the activity, among them (R216). -/
theorem run_ticks {rest : List Turn} (k : Nat) : ∀ s : State, s.schedule = List.replicate k (.event .tick) ++ rest →
    s.timerActive = decide (0 < s.regT.toNat) → k ≤ s.regT.toNat →
      Sys2Proof.core.run k s = .next { s with
        regT := BitVec.ofNat 8 (s.regT.toNat - k), timerActive := decide (k < s.regT.toNat), schedule := rest } := by
  induction k with
  | zero =>
    intro s hs hA _
    rw [Nat.sub_zero, BitVec.ofNat_toNat, BitVec.setWidth_eq, ← hA, show rest = s.schedule from hs.symm]
    rfl
  | succ k ih =>
    intro s hs hA hk
    have hactive : s.timerActive = true := hA.trans (decide_eq_true (by omega))
    have hT : (BitVec.ofNat 8 (s.regT.toNat - 1)).toNat = s.regT.toNat - 1 :=
      Nat.mod_eq_of_lt (by have := s.regT.isLt; omega)
    have hgoesOn (j : Nat) : decide (j < s.regT.toNat - 1) = decide (j + 1 < s.regT.toNat) :=
      decide_eq_decide.mpr (by omega)
    rw [run_succ (step_of_tick_active hs hactive), ih _ rfl] <;> simp only [hT]
    · rw [hgoesOn, Nat.sub_sub, Nat.add_comm 1 k]
    · exact (hgoesOn 0).symm
    · omega

/-- Settles O37: an active timer above 0 is in the relation that a run of ticks keeps. -/
theorem ticksRunDown : Obligations.TicksRunDown := by
  intro k s rest hs hA hT hk
  exact run_ticks k s hs (hA.trans (decide_eq_true hT).symm) hk

end Sys2Proof.Machine
end

section
/-! PROOFS. The lifecycle and the ways a step can end (spec/60_exceptions.md R200, R213, R222 to R229): the transition table,
`ShutDown`, and the one step that answers no next state. -/

namespace Sys2Proof.Machine

/-! ### What answers a next state -/

/-- Settles O25, from the frame of an instruction. -/
theorem everyInstructionAnswersNext : Obligations.EveryInstructionAnswersNext := by
  intro i s
  obtain ⟨t, ht, _⟩ := exec_frame i s
  exact ⟨t, ht⟩

/-- The CPU's turn answers a next state: it waits, or it runs an instruction. -/
theorem cpuStep_answersNext (s : State) : ∃ t, cpuStep s = .next t := by
  rcases cpuStep_cases s with ⟨_, _, hw⟩ | ⟨_, _, _, _, _, hw⟩ | ⟨_, i, _, _, hx⟩
  · exact ⟨_, hw⟩
  · exact ⟨_, hw⟩
  · rw [hx]
    exact everyInstructionAnswersNext i _

/-- Every turn of the timer clock or the host answers a next state, but a second `initialize()` (R222). -/
theorem performEvent_answersNext_or_initialise (e : Event) (s : State) :
    (∃ t, performEvent e s = .next t) ∨ ∃ c image, e = .initialise c image := by
  cases e with
  | tick | call c | token k | render => exact .inl ⟨_, rfl⟩
  | initialise c image => exact .inr ⟨c, image, rfl⟩

/-- Settles O43, by whose turn it is. -/
theorem onlyInitialiseIsRefused : Obligations.OnlyInitialiseIsRefused := by
  refine ⟨fun s => ?step, fun c image hwf => ?illFormed⟩
  case step =>
    rcases step_cases s with ⟨rest, _, hstep⟩ | ⟨e, rest, hs, hstep⟩ <;> rw [hstep]
    · exact .inl (cpuStep_answersNext _)
    · rcases performEvent_answersNext_or_initialise e { s with schedule := rest } with hnext | ⟨c, image, rfl⟩
      · exact .inl hnext
      · exact .inr ⟨rfl, c, image, rest, hs⟩
  case illFormed => rw [initialiseMachine, hwf]; rfl

/-! ### The transition table -/

/-- `shutdown()` is a transition in every lifecycle state (R226). -/
theorem lifecycleCall_shutdown (s : State) : lifecycleCall .shutdown s = s.shutdown := by
  simp [lifecycleCall, lifecycleAfter, State.shutdown]

/-- A transition that does not shut the machine down changes the lifecycle state alone (R227). -/
theorem lifecycleCall_of_some {c : LifecycleCall} {l : Lifecycle} {s : State}
    (h : lifecycleAfter c s.lifecycle = some l) (hl : l ≠ .shutDown) : lifecycleCall c s = { s with lifecycle := l } := by
  simp [lifecycleCall, h, hl]

/-- A call with no transition emits its diagnostic alone (R227). -/
theorem lifecycleCall_of_none {c : LifecycleCall} {s : State} (h : lifecycleAfter c s.lifecycle = none) :
    lifecycleCall c s = s.emit (.callIgnored c s.lifecycle) := by
  simp [lifecycleCall, h]

/-- Each of `start()`, `pause()` and `resume()` has no transition but from its one state (R227, D16). -/
theorem lifecycleAfter_eq_none {c : LifecycleCall} {l : Lifecycle}
    (h : (c = .start ∧ l ≠ .stopped) ∨ (c = .pause ∧ l ≠ .running) ∨ (c = .resume ∧ l ≠ .paused)) :
    lifecycleAfter c l = none := by
  rcases h with ⟨rfl, hl⟩ | ⟨rfl, hl⟩ | ⟨rfl, hl⟩ <;> rw [lifecycleAfter] <;> exact hl

/-- Settles O39: `shutdown()`, the three rows of the table with one transition each, and the no-ops. -/
theorem lifecycleCalls : Obligations.LifecycleCalls := by
  intro s rest c hs
  have hstep {t : State} (h : lifecycleCall c { s with schedule := rest } = t) : step s = .next t :=
    (step_of_event hs).trans (congrArg Host.Outcome.next h)
  have row {l : Lifecycle} (h : lifecycleAfter c s.lifecycle = some l) (hl : l ≠ .shutDown) :
      step s = .next { s with lifecycle := l, schedule := rest } := hstep (lifecycleCall_of_some h hl)
  refine ⟨fun hc => ?shutdown, fun hc hl => ?start, fun hc hl => ?pause, fun hc hl => ?resume, fun h => ?ignored⟩
  case shutdown => subst hc; exact hstep (lifecycleCall_shutdown _)
  case start | pause | resume => exact row (by rw [hc, hl]; rfl) nofun
  case ignored => exact hstep (lifecycleCall_of_none (lifecycleAfter_eq_none h))

/-! ### `ShutDown` is terminal -/

/-- No call leads out of `ShutDown` (R213, R227). -/
theorem lifecycleAfter_shutDown {c : LifecycleCall} {l : Lifecycle} (h : lifecycleAfter c .shutDown = some l) :
    l = .shutDown := by
  cases c <;> cases h
  rfl

/-- No turn of the timer clock or the host leads out of `ShutDown`. -/
theorem performEvent_keeps_shutDown {e : Event} {s t : State} (h : performEvent e s = .next t)
    (hl : s.lifecycle = .shutDown) : t.lifecycle = .shutDown := by
  cases e with
  | call c =>
    cases h
    rcases lifecycleCall_cases c s with ⟨l, hafter, hcall⟩ | ⟨_, hcall⟩ <;> rw [hcall]
    · rw [hl] at hafter
      exact lifecycleAfter_shutDown hafter
    · exact hl
  | tick | token k | render | initialise c image => exact ((performEvent_frame h).lifecycle nofun).trans hl

/-- No instruction leads out of `ShutDown`, in a cycle that completes there (R213, R229). -/
theorem ExecFrame.keeps_shutDown {i : Instr} {s t : State} (hf : ExecFrame i s t) (hl : s.lifecycle = .shutDown) :
    t.lifecycle = .shutDown := by
  rcases hf.timer with ⟨_, _, h⟩ | ⟨_, _, h⟩ | ⟨_, _, _, h, _⟩
  · exact h.trans hl
  · exact h
  · exact h.trans hl

/-- No turn of the timer clock or the host starts the timer or, while it is stopped, changes `T` (R216, R217). -/
theorem performEvent_keeps_stoppedTimer {e : Event} {s t : State} (h : performEvent e s = .next t)
    (hA : s.timerActive = false) : t.timerActive = false ∧ t.regT = s.regT := by
  cases e with
  | tick =>
    cases h
    rw [tick_of_idle hA]
    exact ⟨hA, rfl⟩
  | call c =>
    cases h
    rcases lifecycleCall_cases c s with ⟨_, _, hcall⟩ | ⟨_, hcall⟩ <;> rw [hcall]
    · exact ⟨by rw [hA, Bool.false_and], rfl⟩
    · exact ⟨hA, rfl⟩
  | token k | render => cases h; exact ⟨hA, rfl⟩
  | initialise c image => cases h

/-- Settles O41: with no cycle in progress the CPU waits, and the other agents keep its state and a stopped timer. -/
theorem shutDownIsTerminal : Obligations.ShutDownIsTerminal := by
  intro s t hl h
  have noCycle (hc : s.cycle = .idle) : ¬(s.cycle ≠ .idle ∨ s.lifecycle = .running) := by simp [hc, hl]
  rcases step_next_cases h with ⟨c, _, _, _, rfl, hcycle⟩ | ⟨_, _, _, _, _, hbegin, _, hf⟩ | ⟨_, _, _, he⟩
  · refine ⟨hl, fun hc hA => ⟨?_, hA, rfl, rfl, rfl, rfl, rfl, rfl⟩⟩
    rcases hcycle with hsame | ⟨_, hbegin⟩
    · exact hsame.trans hc
    · exact absurd hbegin (noCycle hc)
  · exact ⟨hf.keeps_shutDown hl, fun hc => absurd hbegin (noCycle hc)⟩
  · refine ⟨performEvent_keeps_shutDown he hl, fun hc hA => ?_⟩
    have hframe := performEvent_frame he
    obtain ⟨hstopped, hT⟩ := performEvent_keeps_stoppedTimer he hA
    exact ⟨hframe.cycle.trans hc, hstopped, hframe.regs, hframe.pc, hframe.regA, hT, hframe.flagM, hframe.mem⟩

end Sys2Proof.Machine
end

section
/-! PROOFS. Hazards (spec/70_reset_and_hazards.md): the instruction that jumps to itself. -/

namespace Sys2Proof.Machine

/-- JUMP to the even address `P` already holds changes no state (R254). -/
theorem exec_jump_to_pc {aaa : BitVec 12} {s : State} (htarget : s.pc.toNat = aaa.toNat) (heven : s.pc.toNat % 2 = 0) :
    exec (.jump aaa) s = .next s := by
  have hpc : zextAddress aaa = s.pc := BitVec.eq_of_toNat_eq ((zextAddress_toNat aaa).trans htarget.symm)
  rw [exec_jump_of_even (htarget ▸ heven), hpc]

/-- Settles O49: the two stored bytes decode to the JUMP, and it sets `P` to the value it has. -/
theorem selfJumpChangesNothing : Obligations.SelfJumpChangesNothing := by
  intro s rest b1 b2 aaa hturn hc hl h1 h2 henc htarget heven
  have hdec : decode [b1, b2] = .ok (.jump aaa, []) := henc ▸ decodeOfEncode (.jump aaa) []
  rw [stepRunsDecodedInstruction s rest b1 b2 (.jump aaa) hturn hc hl h1 h2 hdec]
  exact exec_jump_to_pc htarget heven

end Sys2Proof.Machine
end
